-- ==== Sys2Proof/Word.lean ====
section
/-! DEFINITION. The value types of the block: 00_scope.md R4 (widths) and R5 (unsigned values). -/

namespace Sys2Proof

/-- An 8-bit register, timer or memory value (R4 `V_WIDTH`, `TIMER_WIDTH`). -/
abbrev Byte := BitVec 8

/-- A 16-bit value: I, PC, SP, a stack entry, an opcode (R4). -/
abbrev Word := BitVec 16

/-- The 12-bit address literal nnn (R51). -/
abbrev Addr12 := BitVec 12

/-- The number of a general register, V0 to VF (R10). -/
abbrev Reg := Fin 16

/-- A key code, 0x0 to 0xF (R21). -/
abbrev KeyCode := Fin 16

/-- VF, the flag register: V[0xF] (R11). -/
abbrev Reg.vf : Reg := 15

end Sys2Proof
end

