-- ==== Sys2Proof/Syntax.lean ====
section
/-! DEFINITION. The instructions: one constructor per row of spec/opcode_table.json, in the table's order
(30_encoding.md R54). x and y are register numbers, kk an 8-bit immediate, nnn a 12-bit address, n a
row count (R51, R52). -/

namespace Sys2Proof

inductive Instr where
  /-- 00E0 `CLS` (R76) -/
  | cls
  /-- 00EE `RET` (R80) -/
  | ret
  /-- 1nnn `JP nnn` (R81) -/
  | jp (nnn : Addr12)
  /-- 2nnn `CALL nnn` (R82) -/
  | call (nnn : Addr12)
  /-- 3xkk `SE Vx, kk` (R83) -/
  | seImm (x : Reg) (kk : Byte)
  /-- 4xkk `SNE Vx, kk` (R84) -/
  | sneImm (x : Reg) (kk : Byte)
  /-- 5xy0 `SE Vx, Vy` (R85) -/
  | seReg (x y : Reg)
  /-- 6xkk `LD Vx, kk` (R91) -/
  | ldImm (x : Reg) (kk : Byte)
  /-- 7xkk `ADD Vx, kk` (R92) -/
  | addImm (x : Reg) (kk : Byte)
  /-- 8xy0 `LD Vx, Vy` (R93) -/
  | ldReg (x y : Reg)
  /-- 8xy1 `OR Vx, Vy` (R94) -/
  | orReg (x y : Reg)
  /-- 8xy2 `AND Vx, Vy` (R95) -/
  | andReg (x y : Reg)
  /-- 8xy3 `XOR Vx, Vy` (R96) -/
  | xorReg (x y : Reg)
  /-- 8xy4 `ADD Vx, Vy` (R97) -/
  | addReg (x y : Reg)
  /-- 8xy5 `SUB Vx, Vy` (R98) -/
  | sub (x y : Reg)
  /-- 8xy6 `SHR Vx` (R99): y is decoded and ignored -/
  | shr (x y : Reg)
  /-- 8xy7 `SUBN Vx, Vy` (R100) -/
  | subn (x y : Reg)
  /-- 8xyE `SHL Vx` (R101): y is decoded and ignored -/
  | shl (x y : Reg)
  /-- 9xy0 `SNE Vx, Vy` (R86) -/
  | sneReg (x y : Reg)
  /-- Annn `LD I, nnn` (R110) -/
  | ldI (nnn : Addr12)
  /-- Bnnn `JP V0, nnn` (R87) -/
  | jpV0 (nnn : Addr12)
  /-- Cxkk `RND Vx, kk` (R102) -/
  | rnd (x : Reg) (kk : Byte)
  /-- Dxyn `DRW Vx, Vy, n` (R77): n is a count of rows, 0 to 15 -/
  | drw (x y : Reg) (n : Nat)
  /-- Ex9E `SKP Vx` (R120) -/
  | skp (x : Reg)
  /-- ExA1 `SKNP Vx` (R121) -/
  | sknp (x : Reg)
  /-- Fx07 `LD Vx, DT` (R122) -/
  | ldVxDt (x : Reg)
  /-- Fx0A `LD Vx, K` (R123) -/
  | ldK (x : Reg)
  /-- Fx15 `LD DT, Vx` (R124) -/
  | ldDt (x : Reg)
  /-- Fx18 `LD ST, Vx` (R125) -/
  | ldSt (x : Reg)
  /-- Fx1E `ADD I, Vx` (R111) -/
  | addI (x : Reg)
  /-- Fx29 `LD F, Vx` (R112) -/
  | ldF (x : Reg)
  /-- Fx33 `LD B, Vx` (R113) -/
  | ldB (x : Reg)
  /-- Fx55 `LD [I], Vx` (R114) -/
  | stRegs (x : Reg)
  /-- Fx65 `LD Vx, [I]` (R115) -/
  | ldRegs (x : Reg)
  deriving DecidableEq, Repr

end Sys2Proof
end

