-- ==== Sys2Proof/Decode.lean ====
section
/-! DEFINITION. The decoder of 30_encoding.md R54, total on words and on bytes, and the encoder of the
formats of R53. -/

namespace Sys2Proof

/-- Why bytes do not decode. -/
inductive DecodeError where
  /-- R55: the word is in the invalid space. It carries the raw opcode. -/
  | invalidOpcode (opcode : Word)
  /-- Fewer than the two bytes of an instruction (R50). -/
  | tooShort
  deriving DecidableEq, Repr

/-! The fields of R51. -/

def opField (w : Word) : BitVec 4 := w.extractLsb' 12 4
def xField (w : Word) : Reg := ⟨(w.extractLsb' 8 4).toNat, (w.extractLsb' 8 4).isLt⟩
def yField (w : Word) : Reg := ⟨(w.extractLsb' 4 4).toNat, (w.extractLsb' 4 4).isLt⟩
def nField (w : Word) : Nat := (w.extractLsb' 0 4).toNat
def kkField (w : Word) : Byte := w.extractLsb' 0 8
def nnnField (w : Word) : Addr12 := w.extractLsb' 0 12

/-- R54, top nibble 0x0: the two words of format O. -/
def decode0 (w : Word) : Except DecodeError Instr :=
  if w = 0x00E0 then .ok .cls
  else if w = 0x00EE then .ok .ret
  else .error (.invalidOpcode w)

/-- R54, top nibble 0x8: the low nibble selects. -/
def decode8 (w : Word) : Except DecodeError Instr :=
  match nField w with
  | 0x0 => .ok (.ldReg (xField w) (yField w))
  | 0x1 => .ok (.orReg (xField w) (yField w))
  | 0x2 => .ok (.andReg (xField w) (yField w))
  | 0x3 => .ok (.xorReg (xField w) (yField w))
  | 0x4 => .ok (.addReg (xField w) (yField w))
  | 0x5 => .ok (.sub (xField w) (yField w))
  | 0x6 => .ok (.shr (xField w) (yField w))
  | 0x7 => .ok (.subn (xField w) (yField w))
  | 0xE => .ok (.shl (xField w) (yField w))
  | _ => .error (.invalidOpcode w)

/-- R54, top nibble 0xE: the low byte selects. -/
def decodeE (w : Word) : Except DecodeError Instr :=
  match (kkField w).toNat with
  | 0x9E => .ok (.skp (xField w))
  | 0xA1 => .ok (.sknp (xField w))
  | _ => .error (.invalidOpcode w)

/-- R54, top nibble 0xF: the low byte selects. -/
def decodeF (w : Word) : Except DecodeError Instr :=
  match (kkField w).toNat with
  | 0x07 => .ok (.ldVxDt (xField w))
  | 0x0A => .ok (.ldK (xField w))
  | 0x15 => .ok (.ldDt (xField w))
  | 0x18 => .ok (.ldSt (xField w))
  | 0x1E => .ok (.addI (xField w))
  | 0x29 => .ok (.ldF (xField w))
  | 0x33 => .ok (.ldB (xField w))
  | 0x55 => .ok (.stRegs (xField w))
  | 0x65 => .ok (.ldRegs (xField w))
  | _ => .error (.invalidOpcode w)

/-- R54: the dispatch on the top nibble. Every literal digit must match; every other word is invalid
(R55). -/
def decode (w : Word) : Except DecodeError Instr :=
  match (opField w).toNat with
  | 0x0 => decode0 w
  | 0x1 => .ok (.jp (nnnField w))
  | 0x2 => .ok (.call (nnnField w))
  | 0x3 => .ok (.seImm (xField w) (kkField w))
  | 0x4 => .ok (.sneImm (xField w) (kkField w))
  | 0x5 => if nField w = 0 then .ok (.seReg (xField w) (yField w)) else .error (.invalidOpcode w)
  | 0x6 => .ok (.ldImm (xField w) (kkField w))
  | 0x7 => .ok (.addImm (xField w) (kkField w))
  | 0x8 => decode8 w
  | 0x9 => if nField w = 0 then .ok (.sneReg (xField w) (yField w)) else .error (.invalidOpcode w)
  | 0xA => .ok (.ldI (nnnField w))
  | 0xB => .ok (.jpV0 (nnnField w))
  | 0xC => .ok (.rnd (xField w) (kkField w))
  | 0xD => .ok (.drw (xField w) (yField w) (nField w))
  | 0xE => decodeE w
  | 0xF => decodeF w
  | _ => .error (.invalidOpcode w)

/-- Two bytes as the word they are fetched as: the first byte is bits 15:8 (R50, 20_memory.md R36). -/
def wordOfBytes (hi lo : Byte) : Word := hi ++ lo

/-- The high byte of a word, the one at the lower address. -/
def Word.hiByte (w : Word) : Byte := w.extractLsb' 8 8

/-- The low byte of a word. -/
def Word.loByte (w : Word) : Byte := w.extractLsb' 0 8

/-- The decoder on a byte stream: the instruction and the bytes after it. -/
def decodeBytes : List Byte → Except DecodeError (Instr × List Byte)
  | hi :: lo :: rest =>
    match decode (wordOfBytes hi lo) with
    | .ok i => .ok (i, rest)
    | .error e => .error e
  | _ => .error .tooShort

/-! The encoder, by the formats of R53. -/

/-- A register number as the 4-bit field that names it. -/
def regBits (r : Reg) : BitVec 4 := BitVec.ofFin r

/-- Format A: `op:4`, `nnn:12`. -/
def formatA (op : BitVec 4) (nnn : Addr12) : Word := op ++ nnn

/-- Formats XK and X: `op:4`, `x:4`, `kk:8`. -/
def formatXK (op : BitVec 4) (x : Reg) (kk : Byte) : Word := op ++ (regBits x ++ kk)

/-- Formats XY and XYN: `op:4`, `x:4`, `y:4`, `n:4`. -/
def formatXYN (op : BitVec 4) (x y : Reg) (n : BitVec 4) : Word :=
  op ++ (regBits x ++ (regBits y ++ n))

/-- The word of an instruction, from the patterns of R54. -/
def encode : Instr → Word
  | .cls => 0x00E0
  | .ret => 0x00EE
  | .jp nnn => formatA 0x1 nnn
  | .call nnn => formatA 0x2 nnn
  | .seImm x kk => formatXK 0x3 x kk
  | .sneImm x kk => formatXK 0x4 x kk
  | .seReg x y => formatXYN 0x5 x y 0x0
  | .ldImm x kk => formatXK 0x6 x kk
  | .addImm x kk => formatXK 0x7 x kk
  | .ldReg x y => formatXYN 0x8 x y 0x0
  | .orReg x y => formatXYN 0x8 x y 0x1
  | .andReg x y => formatXYN 0x8 x y 0x2
  | .xorReg x y => formatXYN 0x8 x y 0x3
  | .addReg x y => formatXYN 0x8 x y 0x4
  | .sub x y => formatXYN 0x8 x y 0x5
  | .shr x y => formatXYN 0x8 x y 0x6
  | .subn x y => formatXYN 0x8 x y 0x7
  | .shl x y => formatXYN 0x8 x y 0xE
  | .sneReg x y => formatXYN 0x9 x y 0x0
  | .ldI nnn => formatA 0xA nnn
  | .jpV0 nnn => formatA 0xB nnn
  | .rnd x kk => formatXK 0xC x kk
  | .drw x y n => formatXYN 0xD x y (BitVec.ofNat 4 n)
  | .skp x => formatXK 0xE x 0x9E
  | .sknp x => formatXK 0xE x 0xA1
  | .ldVxDt x => formatXK 0xF x 0x07
  | .ldK x => formatXK 0xF x 0x0A
  | .ldDt x => formatXK 0xF x 0x15
  | .ldSt x => formatXK 0xF x 0x18
  | .addI x => formatXK 0xF x 0x1E
  | .ldF x => formatXK 0xF x 0x29
  | .ldB x => formatXK 0xF x 0x33
  | .stRegs x => formatXK 0xF x 0x55
  | .ldRegs x => formatXK 0xF x 0x65

/-- The instruction the decoder reads from an opcode-table word: its bytes laid out big-endian (R36)
and given to `decodeBytes`. Bits at and above nbits are 0. -/
def decodeTableWord (nbits w : Nat) : Option Instr :=
  let word : Word := BitVec.ofNat 16 (w % 2 ^ nbits)
  match decodeBytes [word.hiByte, word.loByte] with
  | .ok (i, _) => some i
  | .error _ => none

end Sys2Proof
end

