-- ==== Sys2Proof/Config.lean ====
section
/-! DEFINITION. The parameters of 00_scope.md R4, and the one free value of the machine. -/

namespace Sys2Proof.Config

/-- `MEM_SIZE`: addresses 0x000 to 0xFFF. -/
abbrev memSize : Nat := 4096

/-- `PROGRAM_OFFSET`: where the program is loaded; the bytes below it are the reserved region. -/
abbrev programOffset : Nat := 0x200

/-- `MAX_PROGRAM`, in bytes. -/
abbrev maxProgram : Nat := memSize - programOffset

/-- `STACK_DEPTH`, in entries. -/
abbrev stackDepth : Nat := 16

/-- `TIMER_DIVIDER`, in cycles. -/
abbrev timerDivider : Nat := 8

/-- `FB_WIDTH`, in pixels. -/
abbrev fbWidth : Nat := 64

/-- `FB_HEIGHT`, in pixels. -/
abbrev fbHeight : Nat := 32

/-- `GLYPH_SIZE`, in bytes. -/
abbrev glyphSize : Nat := 5

/-- `rand_byte` (OPEN; 60_exceptions.md R152): the n-th random draw. It has no body, so nothing about
any draw can be proved. DESIGN CHOICE of form, safe; log 6. -/
opaque randByte : Nat → Byte

end Sys2Proof.Config
end

