-- ==== Sys2Proof/Machine/Framebuffer.lean ====
section
/-! DEFINITION. The framebuffer controller: 40_display.md R70 to R74. Coordinates are exact natural
numbers; a pair out of range reads as 0 and is never written. -/

namespace Sys2Proof.Machine

/-- `FB`: 64 × 32 = 2048 cells of 1 bit; bit j is FB[j] (10_state.md R20; log 9). -/
abbrev Framebuffer := BitVec 2048

/-- R70: whether the controller has the pixel. -/
def inScreen (x y : Nat) : Bool := decide (x < Config.fbWidth) && decide (y < Config.fbHeight)

/-- R70: row-major, pixel (x, y) at index x + 64·y. -/
def pixelIndex (x y : Nat) : Nat := x + Config.fbWidth * y

/-- `FbRead` (R71). -/
def Framebuffer.read (fb : Framebuffer) (x y : Nat) : Bool :=
  if inScreen x y then fb.getLsbD (pixelIndex x y) else false

/-- `FbInvert` (R73). -/
def Framebuffer.invert (fb : Framebuffer) (x y : Nat) : Framebuffer :=
  if inScreen x y then fb ^^^ BitVec.twoPow 2048 (pixelIndex x y) else fb

/-- `FbWrite` (R72). The controller has it; no instruction and no host action uses it. -/
def Framebuffer.write (fb : Framebuffer) (x y : Nat) (b : Bool) : Framebuffer :=
  if inScreen x y then
    if b then fb ||| BitVec.twoPow 2048 (pixelIndex x y)
    else fb &&& ~~~BitVec.twoPow 2048 (pixelIndex x y)
  else fb

/-- `FbClear` (R74): every cell 0. -/
def Framebuffer.clear : Framebuffer := 0

end Sys2Proof.Machine
end

