-- ==== Sys2Proof/Machine/Memory.lean ====
section
/-! DEFINITION. The 4096-byte memory (20_memory.md R30 to R32, R46) as a list of the cells that differ
from their reset contents, in one canonical form. -/

namespace Sys2Proof.Machine

/-- `FONT` (R32): row d is the 5-byte glyph of hexadecimal digit d, top pixel row first.
PRESUMED (the spec's own default, from general knowledge), unsafe; log 7. -/
def glyphs : List (List Byte) :=
  [[0xF0, 0x90, 0x90, 0x90, 0xF0], [0x20, 0x60, 0x20, 0x20, 0x70],
   [0xF0, 0x10, 0xF0, 0x80, 0xF0], [0xF0, 0x10, 0xF0, 0x10, 0xF0]] ++
  [[0x90, 0x90, 0xF0, 0x10, 0x10], [0xF0, 0x80, 0xF0, 0x10, 0xF0],
   [0xF0, 0x80, 0xF0, 0x90, 0xF0], [0xF0, 0x10, 0x20, 0x40, 0x40]] ++
  [[0xF0, 0x90, 0xF0, 0x90, 0xF0], [0xF0, 0x90, 0xF0, 0x10, 0xF0],
   [0xF0, 0x90, 0xF0, 0x90, 0x90], [0xE0, 0x90, 0xE0, 0x90, 0xE0]] ++
  [[0xF0, 0x80, 0x80, 0x80, 0xF0], [0xE0, 0x90, 0x90, 0x90, 0xE0],
   [0xF0, 0x80, 0xF0, 0x80, 0xF0], [0xF0, 0x80, 0xF0, 0x80, 0x80]]

/-- What a byte holds after reset (R46): the glyphs at 0x000 to 0x04F, digit d at 5·d; `LOW_FILL` (0x00)
at 0x050 to 0x1FF; 0x00 in the program region. It is also what an unlisted address reads as. -/
def resetByte (addr : Nat) : Byte :=
  if addr < 0x50 then (glyphs.getD (addr / Config.glyphSize) []).getD (addr % Config.glyphSize) 0
  else 0

/-- The cells that differ from `resetByte`, addresses strictly rising (log 8). -/
abbrev Memory := List Host.Cell

/-- `MEM[addr]`. -/
def Memory.read : Memory → Nat → Byte
  | [], addr => resetByte addr
  | (a, b) :: rest, addr => if addr = a then b else Memory.read rest addr

/-- The canonical listing of one cell: nothing when the byte is the reset byte. -/
def Memory.cell (addr : Nat) (b : Byte) : Memory :=
  if b = resetByte addr then [] else [(addr, b)]

/-- `MEM[addr] <- b`, keeping the canonical form. -/
def Memory.write : Memory → Nat → Byte → Memory
  | [], addr, b => Memory.cell addr b
  | (a, c) :: rest, addr, b =>
    if addr < a then Memory.cell addr b ++ (a, c) :: rest
    else if addr = a then Memory.cell addr b ++ rest
    else (a, c) :: Memory.write rest addr b

/-- Consecutive bytes from `addr` up, the first at `addr`. -/
def Memory.writeBytes : Memory → Nat → List Byte → Memory
  | m, _, [] => m
  | m, addr, b :: bs => Memory.writeBytes (m.write addr b) (addr + 1) bs

/-- The canonical form from `lo` up: addresses at least `lo`, strictly rising and inside memory, and no
cell equal to its reset byte. -/
def Memory.wfFrom : Nat → Memory → Bool
  | _, [] => true
  | lo, (a, b) :: rest =>
    decide (lo ≤ a) && decide (a < Config.memSize) && decide (b ≠ resetByte a) &&
      Memory.wfFrom (a + 1) rest

/-- The canonical form. -/
def Memory.wf (m : Memory) : Bool := Memory.wfFrom 0 m

end Sys2Proof.Machine
end

