-- ==== Sys2Proof/Machine/State.lean ====
section
/-! DEFINITION. Everything the spec gives the block to hold (10_state.md R10 to R25), its reset value
(R28), and the ways a step can stop. -/

namespace Sys2Proof.Machine

/-- R23: the two run states. -/
inductive RunState where
  | running
  | paused
  deriving DecidableEq, Repr

/-- The fault causes of 60_exceptions.md R130. -/
inductive FaultCode where
  | invalidOpcode
  | fetchRange
  | memRange
  | protectedWrite
  | stackOverflow
  | stackUnderflow
  | keyRange
  deriving DecidableEq, Repr

/-- The fault record of R130. `opcode` is none for FETCH_RANGE. `info` is an exact number: an address
I + k can exceed 16 bits (log 4). -/
structure FaultRecord where
  code   : FaultCode
  pc     : Word
  opcode : Option Word
  info   : Nat
  deriving DecidableEq, Repr

structure State where
  /-- V0 to VF (R10); VF is the flag register (R11). -/
  v        : Vector Byte 16
  /-- Index register I (R12). -/
  i        : Word
  /-- Program counter PC: during a cycle, the address of its instruction (R13). -/
  pc       : Word
  /-- Stack pointer SP: the number of return addresses on the stack (R14). -/
  sp       : Word
  /-- STACK[0] to STACK[15] (R15). -/
  stack    : Vector Word 16
  /-- Delay timer DT (R17). -/
  dt       : Byte
  /-- Sound timer ST (R18). -/
  st       : Byte
  /-- MEM (R19). -/
  mem      : Memory
  /-- FB (R20). -/
  fb       : Framebuffer
  /-- KEY: true is pressed (R21). -/
  key      : Vector Bool 16
  /-- New-frame flag (R22). -/
  newFrame : Bool
  /-- Run state (R23). -/
  run      : RunState
  /-- Completed cycles since reset (R24). -/
  cycles   : Nat
  /-- Fault latch (R25). -/
  fault    : Option FaultRecord
  /-- The model's own: Beep events emitted since reset (R27, 60_exceptions.md R147; log 5). -/
  beeps    : Nat
  /-- The model's own: random bytes drawn so far (60_exceptions.md R152; log 6). -/
  draws    : Nat
  deriving DecidableEq, Repr

/-- Ways the model stops. Every fault the SPEC names is a next state with the latch set (R131), not one
of these. -/
inductive Fault where
  /-- Raised by RET when SP is above 16: 10_state.md R14 gives SP the range 0 to 16 and R15 no entry
  STACK[SP − 1] beyond it. No run reaches such a state. DESIGN CHOICE, safe; log 2. -/
  | stackPointerIllegal
  deriving DecidableEq, Repr

/-- Actions the model turns away. -/
inductive Refusal where
  /-- An instruction without a meaning yet. No arm of `exec` answers it. Safe. -/
  | notModelled (mnemonic : String)
  /-- Raised by `hostAct` for a Load after a step: no legal host action (20_memory.md R45,
  93_implementation_defined.md U7). Safe; log 10. -/
  | loadAfterStep
  /-- Raised by `hostAct` for a Step after a LoadError and before the next reset: the host must not take
  it (60_exceptions.md R155, 93_implementation_defined.md U6). Safe; log 10. -/
  | stepAfterLoadError
  deriving DecidableEq, Repr

/-- The state after power-on: R28, 70_reset_and_hazards.md R160 and R161. -/
def State.reset : State where
  v        := Vector.replicate 16 0
  i        := 0
  pc       := 0x200
  sp       := 0
  stack    := Vector.replicate 16 0
  dt       := 0
  st       := 0
  mem      := []
  fb       := 0
  key      := Vector.replicate 16 false
  newFrame := true
  run      := .running
  cycles   := 0
  fault    := none
  beeps    := 0
  draws    := 0

end Sys2Proof.Machine
end

