-- ==== Sys2Proof/Machine/Ops.lean ====
section
/-! DEFINITION. The named operations the instruction rules are written in (00_scope.md R7), the fault entry
and the way out of it, and the parts of a cycle around the instruction (30_encoding.md R60). -/

namespace Sys2Proof.Machine

/-! Faults: 60_exceptions.md R130 to R135. -/

/-- How an operation ends an instruction early. -/
inductive Trap where
  /-- `raise Fault(code, info)` (00_scope.md R6). -/
  | raise (code : FaultCode) (info : Nat)
  /-- The model stops (log 2). -/
  | stuck (f : Fault)
  deriving DecidableEq, Repr

/-- The numbers of R130. -/
def FaultCode.number : FaultCode → Nat
  | .invalidOpcode => 1
  | .fetchRange => 2
  | .memRange => 3
  | .protectedWrite => 4
  | .stackOverflow => 5
  | .stackUnderflow => 6
  | .keyRange => 7

/-- The fault entry of R131: the record goes into the latch, and nothing else changes. -/
def State.raiseFault (s : State) (code : FaultCode) (info : Nat) (opcode : Option Word) : State :=
  { s with fault := some { code := code, pc := s.pc, opcode := opcode, info := info } }

/-- The host's reset, the only way out of the faulted state (R132, R135): 70_reset_and_hazards.md R161.
KEY stays (R160); so does the count of random draws, which is not the spec's state (log 6). -/
def State.hostReset (s : State) : State := { State.reset with key := s.key, draws := s.draws }

/-- How a trap ends a cycle, with what is known of its opcode: the fault entry applied to the state the
cycle started from (R131), or the model's stop. -/
def endTrap (s : State) (opcode : Option Word) : Trap → Host.Outcome State Fault Refusal
  | .raise code info => .next (s.raiseFault code info opcode)
  | .stuck f => .fault f

/-- How an instruction's pseudocode ends: with its new state, or trapped with nothing written
(20_memory.md R40). The recorded opcode is the instruction's word (log 3). -/
def endInstr (ins : Instr) (s : State) : Except Trap State → Host.Outcome State Fault Refusal
  | .ok s' => .next s'
  | .error t => endTrap s (some (encode ins)) t

/-! Registers: 10_state.md R10 to R13. -/

/-- `V[x]`. -/
def State.readReg (s : State) (x : Reg) : Byte := s.v[x]

/-- `V[x] <- b`. -/
def State.writeReg (s : State) (x : Reg) (b : Byte) : State := { s with v := s.v.set x b }

/-- `I <- w`. -/
def State.setI (s : State) (w : Word) : State := { s with i := w }

/-- `PC <- w`. -/
def State.setPc (s : State) (w : Word) : State := { s with pc := w }

/-- `PC <- PC + 2`. -/
def State.nextInstr (s : State) : State := s.setPc (s.pc + 2)

/-- `PC <- PC + 4` if the condition holds, else `PC <- PC + 2` (30_encoding.md R61). -/
def State.skipIf (s : State) (c : Bool) : State := s.setPc (if c then s.pc + 4 else s.pc + 2)

/-- `DT <- b` (R17). -/
def State.setDt (s : State) (b : Byte) : State := { s with dt := b }

/-- `ST <- b` (R18). -/
def State.setSt (s : State) (b : Byte) : State := { s with st := b }

/-- FB replaced and `newFrame <- 1` (R22). -/
def State.setFrame (s : State) (fb : Framebuffer) : State := { s with fb := fb, newFrame := true }

/-- V[k], V[k+1], … loaded from a list of bytes (43_index_memory.md R115). -/
def loadRegsFrom : Vector Byte 16 → Nat → List Byte → Vector Byte 16
  | v, _, [] => v
  | v, k, b :: bs => loadRegsFrom (v.setIfInBounds k b) (k + 1) bs

/-- V0 up loaded from a list of bytes. -/
def State.loadRegs (s : State) (bs : List Byte) : State := { s with v := loadRegsFrom s.v 0 bs }

/-! Return stack: 10_state.md R16. -/

/-- `Push(v)`. -/
def State.push (s : State) (w : Word) : Except Trap State :=
  if h : s.sp.toNat < 16 then
    .ok { s with stack := s.stack.set s.sp.toNat w, sp := s.sp + 1 }
  else .error (.raise .stackOverflow s.pc.toNat)

/-- `Pop()`: the popped word and the state after it. The entry is not cleared (R15). -/
def State.pop (s : State) : Except Trap (Word × State) :=
  if s.sp = 0 then .error (.raise .stackUnderflow s.pc.toNat)
  else if h : (s.sp - 1).toNat < 16 then
    .ok (s.stack[(s.sp - 1).toNat], { s with sp := s.sp - 1 })
  else .error (.stuck .stackPointerIllegal)

/-! Memory: 20_memory.md R33 to R35 and R40. Addresses are exact natural numbers. -/

/-- `MEM[addr]`, with no check: the cell itself. -/
def State.readByte (s : State) (addr : Nat) : Byte := s.mem.read addr

/-- `MemRead(addr, 1)` (R33). -/
def State.memRead (s : State) (addr : Nat) : Except Trap Byte :=
  if addr > 0xFFF then .error (.raise .memRange addr) else .ok (s.readByte addr)

/-- `n` byte reads at addr, addr + 1, …, ascending. -/
def State.memReadRange (s : State) (addr : Nat) : Nat → Except Trap (List Byte)
  | 0 => .ok []
  | n + 1 =>
    match s.memRead addr with
    | .error t => .error t
    | .ok b => (s.memReadRange (addr + 1) n).map (b :: ·)

/-- The checks of `MemWrite(addr, 1, v)` (R34). -/
def checkWrite (addr : Nat) : Except Trap Unit :=
  if addr > 0xFFF then .error (.raise .memRange addr)
  else if addr < Config.programOffset then .error (.raise .protectedWrite addr)
  else .ok ()

/-- The checks of `n` byte writes at addr, addr + 1, …, ascending, all before any write (R40). -/
def checkWriteRange (addr : Nat) : Nat → Except Trap Unit
  | 0 => .ok ()
  | n + 1 =>
    match checkWrite addr with
    | .error t => .error t
    | .ok _ => checkWriteRange (addr + 1) n

/-- The byte writes themselves, after their checks. -/
def State.storeBytes (s : State) (addr : Nat) (bs : List Byte) : State :=
  { s with mem := s.mem.writeBytes addr bs }

/-- Checked byte writes from `addr` up: all of them, or none (R40). -/
def State.memWriteBytes (s : State) (addr : Nat) (bs : List Byte) : Except Trap State :=
  (checkWriteRange addr bs.length).map fun _ => s.storeBytes addr bs

/-- `FetchWord(PC)` (R35). -/
def State.fetchWord (s : State) : Except Trap Word :=
  if s.pc.toNat + 1 > 0xFFF then .error (.raise .fetchRange s.pc.toNat)
  else .ok (wordOfBytes (s.readByte s.pc.toNat) (s.readByte (s.pc.toNat + 1)))

/-! Keypad and random source: 60_exceptions.md R150 to R152. -/

/-- `KeyRead(k)` (R150). -/
def State.keyRead (s : State) (k : Nat) : Except Trap Bool :=
  if h : k < 16 then .ok s.key[k] else .error (.raise .keyRange k)

/-- The least pressed key (44_keypad_timers.md R123). -/
def State.firstKey (s : State) : Option KeyCode := (List.finRange 16).find? fun k => s.key[k]

/-- `RandByte()`: the draw, and the state with one more draw taken (R152; log 6). -/
def State.randByte (s : State) : Byte × State :=
  (Config.randByte s.draws, { s with draws := s.draws + 1 })

/-! The cycle around the instruction: 30_encoding.md R60. -/

/-- `TimerTick()` (60_exceptions.md R146). A Beep is one more in `beeps` (R147; log 5). -/
def State.timerTick (s : State) : State :=
  { s with
    dt := if s.dt = 0 then 0 else s.dt - 1
    st := if s.st = 0 then 0 else s.st - 1
    beeps := if s.st = 1 then s.beeps + 1 else s.beeps }

/-- What ends a cycle whose instruction has run: the tick when `cycles mod 8 == 0`, then
`cycles <- cycles + 1`. A cycle that raised a fault has already ended (R131). -/
def State.endCycle (s : State) : State :=
  if s.fault.isSome then s
  else
    let t := if s.cycles % Config.timerDivider = 0 then s.timerTick else s
    { t with cycles := t.cycles + 1 }

/-- Fetch and decode: the instruction, or the trap of R133's first two ranks with what is known of the
opcode. -/
def State.fetchDecode (s : State) : Except (Option Word × Trap) Instr :=
  match s.fetchWord with
  | .error t => .error (none, t)
  | .ok w =>
    match decode w with
    | .ok ins => .ok ins
    | .error _ => .error (some w, .raise .invalidOpcode w.toNat)

/-- Whether a step request is a no-op: the faulted state (R132) or Paused (R158). -/
def State.halted (s : State) : Bool := s.fault.isSome || decide (s.run = .paused)

end Sys2Proof.Machine
end

