-- ==== Sys2Proof/Machine/Operands.lean ====
section
/-! DEFINITION. The operand forms of 30_encoding.md R52 and the one addressing mode of 43_index_memory.md.
Every operand is unsigned and zero-extended. -/

namespace Sys2Proof.Machine

/-- nnn as a 16-bit address: `zext_16(nnn)`. -/
def addrOperand (nnn : Addr12) : Word := nnn.zeroExtend 16

/-- `zext_16(b)` of a register value. -/
def regOperand16 (b : Byte) : Word := b.zeroExtend 16

/-- A sprite coordinate: the register's value as an exact integer (40_display.md R77). -/
def coordOperand (b : Byte) : Nat := b.toNat

/-- The base of every data access, I as an exact integer: access k is at `I + k` (20_memory.md R33). -/
def State.indexBase (s : State) : Nat := s.i.toNat

/-- V0 to Vx, in order: the bytes of 43_index_memory.md R114. -/
def State.regsUpTo (s : State) (x : Reg) : List Byte := s.v.toList.take (x.val + 1)

/-- The hundreds, tens and ones digits (43_index_memory.md R113). -/
def bcdDigits (b : Byte) : List Byte := [b / 100, (b / 10) % 10, b % 10]

end Sys2Proof.Machine
end

