-- ==== Sys2Proof/Machine/Flags.lean ====
section
/-! DEFINITION. The seven flag values that instructions write to VF (10_state.md R11). -/

namespace Sys2Proof.Machine

/-- A flag as VF holds it: 1 or 0. -/
def flagByte (c : Bool) : Byte := if c then 1 else 0

/-- 8xy4: the unsigned sum exceeds 255 (42_alu.md R97). -/
def carryFlag (a b : Byte) : Byte := flagByte (decide (a.toNat + b.toNat > 255))

/-- 8xy5 and 8xy7: NOT borrow of `a - b`, 1 when a ≥ b (R98, R100). -/
def notBorrowFlag (a b : Byte) : Byte := flagByte (decide (b.toNat ≤ a.toNat))

/-- 8xy6: the bit shifted out on the right, bit 0 (R99). -/
def shiftedOutLow (a : Byte) : Byte := flagByte (a.getLsbD 0)

/-- 8xyE: the bit shifted out on the left, bit 7 (R101). -/
def shiftedOutHigh (a : Byte) : Byte := flagByte (a.getLsbD 7)

/-- Fx1E: the exact sum passes 0xFFF (43_index_memory.md R111). -/
def indexOverflowFlag (i : Word) (a : Byte) : Byte := flagByte (decide (i.toNat + a.toNat > 0xFFF))

/-- Dxyn: a pixel collided (40_display.md R77). -/
def collisionFlag (collided : Bool) : Byte := flagByte collided

/-- `V[x] <- result`, then `V[0xF] <- flag`: the flag is what VF keeps when x is 0xF (R11). -/
def State.writeWithFlag (s : State) (x : Reg) (result flag : Byte) : State :=
  (s.writeReg x result).writeReg Reg.vf flag

end Sys2Proof.Machine
end

