-- ==== Sys2Proof/Machine/Alu.lean ====
section
/-! DEFINITION. Register loads and the ALU: 42_alu.md R90 to R102. Byte arithmetic wraps modulo 256 (R90).
Operands are read before any write. -/

namespace Sys2Proof.Machine

/-- 6xkk `LD Vx, kk` (R91). -/
def execLdImm (x : Reg) (kk : Byte) (s : State) : Host.Outcome State Fault Refusal :=
  .next (s.writeReg x kk).nextInstr

/-- 7xkk `ADD Vx, kk` (R92): the carry is lost. -/
def execAddImm (x : Reg) (kk : Byte) (s : State) : Host.Outcome State Fault Refusal :=
  .next (s.writeReg x (s.readReg x + kk)).nextInstr

/-- 8xy0 `LD Vx, Vy` (R93). -/
def execLdReg (x y : Reg) (s : State) : Host.Outcome State Fault Refusal :=
  .next (s.writeReg x (s.readReg y)).nextInstr

/-- 8xy1 `OR Vx, Vy` (R94). -/
def execOrReg (x y : Reg) (s : State) : Host.Outcome State Fault Refusal :=
  .next (s.writeReg x (s.readReg x ||| s.readReg y)).nextInstr

/-- 8xy2 `AND Vx, Vy` (R95). -/
def execAndReg (x y : Reg) (s : State) : Host.Outcome State Fault Refusal :=
  .next (s.writeReg x (s.readReg x &&& s.readReg y)).nextInstr

/-- 8xy3 `XOR Vx, Vy` (R96). -/
def execXorReg (x y : Reg) (s : State) : Host.Outcome State Fault Refusal :=
  .next (s.writeReg x (s.readReg x ^^^ s.readReg y)).nextInstr

/-- 8xy4 `ADD Vx, Vy` (R97). -/
def execAddReg (x y : Reg) (s : State) : Host.Outcome State Fault Refusal :=
  let a := s.readReg x
  let b := s.readReg y
  .next (s.writeWithFlag x (a + b) (carryFlag a b)).nextInstr

/-- 8xy5 `SUB Vx, Vy` (R98). -/
def execSub (x y : Reg) (s : State) : Host.Outcome State Fault Refusal :=
  let a := s.readReg x
  let b := s.readReg y
  .next (s.writeWithFlag x (a - b) (notBorrowFlag a b)).nextInstr

/-- 8xy6 `SHR Vx` (R99): y is ignored. -/
def execShr (x : Reg) (s : State) : Host.Outcome State Fault Refusal :=
  let a := s.readReg x
  .next (s.writeWithFlag x (a >>> 1) (shiftedOutLow a)).nextInstr

/-- 8xy7 `SUBN Vx, Vy` (R100). -/
def execSubn (x y : Reg) (s : State) : Host.Outcome State Fault Refusal :=
  let a := s.readReg x
  let b := s.readReg y
  .next (s.writeWithFlag x (b - a) (notBorrowFlag b a)).nextInstr

/-- 8xyE `SHL Vx` (R101): y is ignored. -/
def execShl (x : Reg) (s : State) : Host.Outcome State Fault Refusal :=
  let a := s.readReg x
  .next (s.writeWithFlag x (a <<< 1) (shiftedOutHigh a)).nextInstr

/-- Cxkk `RND Vx, kk` (R102): a draw is taken whatever kk is. -/
def execRnd (x : Reg) (kk : Byte) (s : State) : Host.Outcome State Fault Refusal :=
  let r := s.randByte
  .next (r.2.writeReg x (r.1 &&& kk)).nextInstr

end Sys2Proof.Machine
end

