-- ==== Sys2Proof/Machine/ControlFlow.lean ====
section
/-! DEFINITION. Control flow: 41_control_flow.md R80 to R87. -/

namespace Sys2Proof.Machine

/-- 00EE `RET` (R80): the popped entry is the address of the CALL. -/
def execRet (s : State) : Host.Outcome State Fault Refusal :=
  endInstr .ret s <| s.pop.map fun p => p.2.setPc (p.1 + 2)

/-- 1nnn `JP nnn` (R81). -/
def execJp (nnn : Addr12) (s : State) : Host.Outcome State Fault Refusal :=
  .next (s.setPc (addrOperand nnn))

/-- 2nnn `CALL nnn` (R82): pushes the address of the CALL itself. -/
def execCall (nnn : Addr12) (s : State) : Host.Outcome State Fault Refusal :=
  endInstr (.call nnn) s <| (s.push s.pc).map fun s' => s'.setPc (addrOperand nnn)

/-- 3xkk `SE Vx, kk` (R83). -/
def execSeImm (x : Reg) (kk : Byte) (s : State) : Host.Outcome State Fault Refusal :=
  .next (s.skipIf (s.readReg x == kk))

/-- 4xkk `SNE Vx, kk` (R84). -/
def execSneImm (x : Reg) (kk : Byte) (s : State) : Host.Outcome State Fault Refusal :=
  .next (s.skipIf (s.readReg x != kk))

/-- 5xy0 `SE Vx, Vy` (R85). -/
def execSeReg (x y : Reg) (s : State) : Host.Outcome State Fault Refusal :=
  .next (s.skipIf (s.readReg x == s.readReg y))

/-- 9xy0 `SNE Vx, Vy` (R86). -/
def execSneReg (x y : Reg) (s : State) : Host.Outcome State Fault Refusal :=
  .next (s.skipIf (s.readReg x != s.readReg y))

/-- Bnnn `JP V0, nnn` (R87): not reduced to 12 bits. -/
def execJpV0 (nnn : Addr12) (s : State) : Host.Outcome State Fault Refusal :=
  .next (s.setPc (addrOperand nnn + regOperand16 (s.readReg 0)))

end Sys2Proof.Machine
end

