-- ==== Sys2Proof/Machine/Display.lean ====
section
/-! DEFINITION. The display instructions: 40_display.md R76 and R77. -/

namespace Sys2Proof.Machine

/-- A framebuffer under drawing, and whether a pixel has collided so far. -/
abbrev Drawing := Framebuffer × Bool

/-- One 1 bit of a sprite at an exact coordinate: the collision test, then the invert (R77). -/
def drawPixel (d : Drawing) (px py : Nat) : Drawing :=
  (d.1.invert px py, d.2 || d.1.read px py)

/-- Column c of a sprite row: bit 7 − c of the byte, bit 7 leftmost (R77). -/
def spriteBit (row : Byte) (c : Nat) : Bool := row.getLsbD (7 - c)

/-- Column c of a sprite row: a 0 bit leaves its pixel alone. -/
def drawColumn (px0 py : Nat) (row : Byte) (d : Drawing) (c : Nat) : Drawing :=
  if spriteBit row c then drawPixel d (px0 + c) py else d

/-- One sprite row, columns 0 to 7. -/
def drawRow (d : Drawing) (px0 py : Nat) (row : Byte) : Drawing :=
  (List.range 8).foldl (drawColumn px0 py row) d

/-- The rows of a sprite, the first at `py`. -/
def drawRows (d : Drawing) (px0 py : Nat) : List Byte → Drawing
  | [] => d
  | row :: rows => drawRows (drawRow d px0 py row) px0 (py + 1) rows

/-- 00E0 `CLS` (R76). -/
def execCls (s : State) : Host.Outcome State Fault Refusal :=
  .next (s.setFrame Framebuffer.clear).nextInstr

/-- What R77 does once its rows are read: the pixels, then `VF <- collided` and the new-frame flag. -/
def State.drawSprite (s : State) (px0 py0 : Nat) (rows : List Byte) : State :=
  let d := drawRows (s.fb, false) px0 py0 rows
  (s.setFrame d.1).writeReg Reg.vf (collisionFlag d.2)

/-- Dxyn `DRW Vx, Vy, n` (R77): all reads come first. -/
def execDrw (x y : Reg) (n : Nat) (s : State) : Host.Outcome State Fault Refusal :=
  endInstr (.drw x y n) s <|
    (s.memReadRange s.indexBase n).map fun rows =>
      (s.drawSprite (coordOperand (s.readReg x)) (coordOperand (s.readReg y)) rows).nextInstr

end Sys2Proof.Machine
end

