-- ==== Sys2Proof/Machine/IndexMemory.lean ====
section
/-! DEFINITION. The index register and memory transfers: 43_index_memory.md R110 to R115. -/

namespace Sys2Proof.Machine

/-- Annn `LD I, nnn` (R110). -/
def execLdI (nnn : Addr12) (s : State) : Host.Outcome State Fault Refusal :=
  .next (s.setI (addrOperand nnn)).nextInstr

/-- Fx1E `ADD I, Vx` (R111): I is kept to 16 bits. -/
def execAddI (x : Reg) (s : State) : Host.Outcome State Fault Refusal :=
  let a := s.readReg x
  .next ((s.setI (s.i + regOperand16 a)).writeReg Reg.vf (indexOverflowFlag s.i a)).nextInstr

/-- Fx29 `LD F, Vx` (R112): all of V[x], in 16 bits. -/
def execLdF (x : Reg) (s : State) : Host.Outcome State Fault Refusal :=
  .next (s.setI (regOperand16 (s.readReg x) * 5)).nextInstr

/-- Fx33 `LD B, Vx` (R113): hundreds at I, tens at I + 1, ones at I + 2. -/
def execLdB (x : Reg) (s : State) : Host.Outcome State Fault Refusal :=
  endInstr (.ldB x) s <|
    (s.memWriteBytes s.indexBase (bcdDigits (s.readReg x))).map fun s' => s'.nextInstr

/-- `I <- (base + x + 1) mod 65536`, the post-modification of R114 and R115. -/
def State.indexPast (s : State) (x : Reg) : State := s.setI (BitVec.ofNat 16 (s.indexBase + x.val + 1))

/-- Fx55 `LD [I], Vx` (R114). -/
def execStRegs (x : Reg) (s : State) : Host.Outcome State Fault Refusal :=
  endInstr (.stRegs x) s <|
    (s.memWriteBytes s.indexBase (s.regsUpTo x)).map fun s' => (s'.indexPast x).nextInstr

/-- Fx65 `LD Vx, [I]` (R115): all reads come first. -/
def execLdRegs (x : Reg) (s : State) : Host.Outcome State Fault Refusal :=
  endInstr (.ldRegs x) s <|
    (s.memReadRange s.indexBase (x.val + 1)).map fun bs => ((s.loadRegs bs).indexPast x).nextInstr

end Sys2Proof.Machine
end

