-- ==== Sys2Proof/Machine/KeypadTimers.lean ====
section
/-! DEFINITION. Keypad and timer instructions: 44_keypad_timers.md R120 to R125. -/

namespace Sys2Proof.Machine

/-- Ex9E `SKP Vx` (R120). -/
def execSkp (x : Reg) (s : State) : Host.Outcome State Fault Refusal :=
  endInstr (.skp x) s <| (s.keyRead (s.readReg x).toNat).map fun p => s.skipIf p

/-- ExA1 `SKNP Vx` (R121). -/
def execSknp (x : Reg) (s : State) : Host.Outcome State Fault Refusal :=
  endInstr (.sknp x) s <| (s.keyRead (s.readReg x).toNat).map fun p => s.skipIf !p

/-- Fx07 `LD Vx, DT` (R122). -/
def execLdVxDt (x : Reg) (s : State) : Host.Outcome State Fault Refusal :=
  .next (s.writeReg x s.dt).nextInstr

/-- Fx0A `LD Vx, K` (R123): with no key pressed nothing changes, PC included. -/
def execLdK (x : Reg) (s : State) : Host.Outcome State Fault Refusal :=
  match s.firstKey with
  | some k => .next (s.writeReg x (BitVec.ofNat 8 k.val)).nextInstr
  | none => .next s

/-- Fx15 `LD DT, Vx` (R124). -/
def execLdDt (x : Reg) (s : State) : Host.Outcome State Fault Refusal :=
  .next (s.setDt (s.readReg x)).nextInstr

/-- Fx18 `LD ST, Vx` (R125). -/
def execLdSt (x : Reg) (s : State) : Host.Outcome State Fault Refusal :=
  .next (s.setSt (s.readReg x)).nextInstr

end Sys2Proof.Machine
end

