-- ==== Sys2Proof/Machine/Step.lean ====
section
/-! DEFINITION. One cycle (30_encoding.md R60), and the placing of an instruction where it fetches. -/

namespace Sys2Proof.Machine

/-- `Step()` of R60: a no-op when faulted or paused; else fetch, decode, execute, tick and count. -/
def step (s : State) : Host.Outcome State Fault Refusal :=
  if s.halted then .next s
  else
    match s.fetchDecode with
    | .error (opcode, t) => endTrap s opcode t
    | .ok ins =>
      match exec ins s with
      | .next s' => .next s'.endCycle
      | .fault r => .fault r
      | .refused r => .refused r

/-- `s` made ready to run one instruction in its next step: the word stored big-endian at PC, the engine
Running and not faulted, and PC moved to 0x200 where no word can be fetched at it. It stands for the
host's load (log 12). -/
def State.withFetchWord (s : State) (nbits w : Nat) : State :=
  let word : Word := BitVec.ofNat 16 (w % 2 ^ nbits)
  let pc : Word := if s.pc.toNat + 1 > 0xFFF then 0x200 else s.pc
  { s with
    mem := s.mem.writeBytes pc.toNat [word.hiByte, word.loByte]
    pc := pc
    run := .running
    fault := none }

end Sys2Proof.Machine
end

