-- ==== Sys2Proof/Machine/HostInterface.lean ====
section
/-! DEFINITION. The host's actions on the block, each between two cycles: 60_exceptions.md R155. -/

namespace Sys2Proof.Machine

/-! The actions on the block itself. -/

/-- The program copy of `Load(b)` (20_memory.md R45): bytes verbatim from 0x200, past no check of
`MemWrite`. -/
def State.loadProgram (s : State) (b : List Byte) : State :=
  { s with mem := s.mem.writeBytes Config.programOffset b }

/-- `PauseToggle` (60_exceptions.md R159). -/
def State.pauseToggle (s : State) : State :=
  { s with run := if s.run = .running then .paused else .running }

/-- `KeyDown(k)` and `KeyUp(k)` (60_exceptions.md R151). With KEY[k] already 1 the two in turn leave it 0:
70_reset_and_hazards.md R168 says more widely that the pair changes nothing, and the model follows R151.
DEDUCED, unsafe; log 15. -/
def State.setKey (s : State) (k : KeyCode) (pressed : Bool) : State :=
  { s with key := s.key.set k pressed }

/-- `AckFrame`: only this clears the new-frame flag (40_display.md R75). -/
def State.ackFrame (s : State) : State := { s with newFrame := false }

/-- What the host's drawable is asked to do (40_display.md R75). -/
inductive DrawCall where
  | clear
  | drawPixel (x y : Nat)
  | present
  deriving DecidableEq, Repr

/-- The calls of one `RenderFrame`, row-major: y in the outer loop, x in the inner loop (40_display.md
R75). -/
def State.renderCalls (s : State) : List DrawCall :=
  .clear ::
    ((List.range Config.fbHeight).flatMap fun y =>
      ((List.range Config.fbWidth).filter fun x => s.fb.read x y).map fun x => .drawPixel x y) ++
    [.present]

/-! The actions under the host's duties. -/

/-- The block with the host's bookkeeping since the last reset: whether a Load is permitted, and whether
one has failed (20_memory.md R45, 60_exceptions.md R155; log 10). -/
structure Session where
  block      : State
  mayLoad    : Bool
  loadFailed : Bool
  deriving DecidableEq, Repr

/-- Power-on (70_reset_and_hazards.md R160). -/
def Session.powerOn : Session := { block := State.reset, mayLoad := true, loadFailed := false }

/-- The table of R155. -/
inductive HostAction where
  | reset
  | load (b : List Byte)
  | step
  | pauseToggle
  | keyDown (k : KeyCode)
  | keyUp (k : KeyCode)
  | hasNewFrame
  | readPixel (x y : Nat)
  | renderFrame
  | ackFrame
  | readFault
  deriving DecidableEq, Repr

/-- What an action reports to the host (60_exceptions.md R154). -/
inductive Report where
  | done
  | loadError
  /-- How many Beep events a Step emitted (R147). -/
  | stepped (beeps : Nat)
  | newFrame (b : Bool)
  | pixel (b : Bool)
  | frame (calls : List DrawCall)
  | faultLatch (f : Option FaultRecord)
  deriving DecidableEq, Repr

/-- `Load(b)` (20_memory.md R45): permitted only after a reset and before the first step since it. -/
def Session.load (h : Session) (b : List Byte) :
    Host.Outcome (Session × Report) Fault Refusal :=
  if h.mayLoad then
    if b.length > Config.maxProgram then .next ({ h with loadFailed := true }, .loadError)
    else .next ({ h with block := h.block.loadProgram b }, .done)
  else .refused .loadAfterStep

/-- `Step`, which the host must not take after a LoadError until it has reset (R155). -/
def Session.step (h : Session) : Host.Outcome (Session × Report) Fault Refusal :=
  if h.loadFailed then .refused .stepAfterLoadError
  else
    match Machine.step h.block with
    | .next s => .next ({ h with block := s, mayLoad := false }, .stepped (s.beeps - h.block.beeps))
    | .fault r => .fault r
    | .refused r => .refused r

/-- One host action. -/
def hostAct (a : HostAction) (h : Session) : Host.Outcome (Session × Report) Fault Refusal :=
  match a with
  | .reset => .next ({ block := h.block.hostReset, mayLoad := true, loadFailed := false }, .done)
  | .load b => h.load b
  | .step => h.step
  | .pauseToggle => .next ({ h with block := h.block.pauseToggle }, .done)
  | .keyDown k => .next ({ h with block := h.block.setKey k true }, .done)
  | .keyUp k => .next ({ h with block := h.block.setKey k false }, .done)
  | .hasNewFrame => .next (h, .newFrame h.block.newFrame)
  | .readPixel x y => .next (h, .pixel (h.block.fb.read x y))
  | .renderFrame => .next ({ h with block := h.block.ackFrame }, .frame h.block.renderCalls)
  | .ackFrame => .next ({ h with block := h.block.ackFrame }, .done)
  | .readFault => .next (h, .faultLatch h.block.fault)

end Sys2Proof.Machine
end

