-- ==== Sys2Proof/Safety.lean ====
section
/-! DEFINITION. The terms claims are stated in: frames over the components of State, the invariant of every
run, and the spinning end of a program. -/

namespace Sys2Proof.Machine

/-- The components of State. -/
inductive Component where
  | v | i | pc | sp | stack | dt | st | mem | fb | key | newFrame | run | cycles | fault | beeps | draws
  deriving DecidableEq, Repr

/-- The component is the same before and after. For memory: every byte reads as before. -/
def Component.same : Component → State → State → Prop
  | .v, s, t => t.v = s.v
  | .i, s, t => t.i = s.i
  | .pc, s, t => t.pc = s.pc
  | .sp, s, t => t.sp = s.sp
  | .stack, s, t => t.stack = s.stack
  | .dt, s, t => t.dt = s.dt
  | .st, s, t => t.st = s.st
  | .mem, s, t => ∀ a, t.readByte a = s.readByte a
  | .fb, s, t => t.fb = s.fb
  | .key, s, t => t.key = s.key
  | .newFrame, s, t => t.newFrame = s.newFrame
  | .run, s, t => t.run = s.run
  | .cycles, s, t => t.cycles = s.cycles
  | .fault, s, t => t.fault = s.fault
  | .beeps, s, t => t.beeps = s.beeps
  | .draws, s, t => t.draws = s.draws

/-- Every component outside the list is the same. -/
def onlyChanges (cs : List Component) (s t : State) : Prop := ∀ c, c ∉ cs → c.same s t

/-- Every general register outside the list is the same. -/
def onlyWritesRegs (xs : List Reg) (s t : State) : Prop := ∀ r, r ∉ xs → t.readReg r = s.readReg r

/-- Every byte of memory outside the `n` bytes at `addr` reads as before. -/
def onlyStoresTo (addr n : Nat) (s t : State) : Prop :=
  ∀ a, a < addr ∨ addr + n ≤ a → t.readByte a = s.readByte a

/-- The host's bookkeeping is the same before and after (log 10). -/
def Session.sameBooks (h h' : Session) : Prop := h'.mayLoad = h.mayLoad ∧ h'.loadFailed = h.loadFailed

/-- What holds in every state of a run. -/
structure State.Inv (s : State) : Prop where
  /-- Memory is canonical, and its reserved region holds its reset contents: it "must never be altered by
  program execution" (20_memory.md R31). -/
  memCanonical : Memory.wfFrom 0x200 s.mem = true
  /-- SP counts the return addresses, 0 to 16 (10_state.md R14). -/
  spInRange : s.sp.toNat ≤ 16
  /-- Every return address is that of a CALL that was fetched (20_memory.md R35). -/
  stackFetchable : ∀ j : Fin 16, s.stack[j].toNat ≤ 0xFFE
  /-- "No reachable state has PC above 0x10FE" (93_implementation_defined.md U23). -/
  pcBounded : s.pc.toNat ≤ 0x10FE
  /-- PC still addresses the faulting instruction (60_exceptions.md R131). -/
  faultAtPc : ∀ f, s.fault = some f → f.pc = s.pc

/-- The word at PC and PC + 1, the high byte first (30_encoding.md R50). -/
def State.wordAtPc (s : State) : Word := s.readByte s.pc.toNat ++ s.readByte (s.pc.toNat + 1)

/-- The engine will fetch and decode `ins` in its next step: Running, not faulted, PC and PC + 1 inside
memory, and the word there decodes to it (30_encoding.md R60). -/
def State.willRun (s : State) (ins : Instr) : Prop :=
  s.run = .running ∧ s.fault = none ∧ s.pc.toNat ≤ 0xFFE ∧ decode s.wordAtPc = .ok ins

/-- Pixel (px, py) lies under a 1 bit of the n-row sprite at I, drawn from (x0, y0): byte py − y0, bit 7 at
column x0 (40_display.md R77). -/
def spriteCovers (s : State) (x0 y0 n px py : Nat) : Prop :=
  (x0 ≤ px ∧ px < x0 + 8) ∧ (y0 ≤ py ∧ py < y0 + n) ∧
    (s.readByte (s.i.toNat + (py - y0))).getLsbD (7 - (px - x0)) = true

/-- The fault record that `ins`, running at `s`, latches (60_exceptions.md R130). -/
def faultBy (ins : Instr) (s : State) (code : FaultCode) (info : Nat) : FaultRecord :=
  { code := code, pc := s.pc, opcode := some (encode ins), info := info }

/-- PC addresses a word 1nnn with nnn = PC, and the engine will run it (70_reset_and_hazards.md R165 (b)).
DESIGN CHOICE, safe: a Paused engine at such a word is not called spinning, since R165 (b) names only the
word and R158 makes its steps no-ops; log 14. -/
def State.spinning (s : State) : Prop :=
  ∃ nnn : Addr12, s.willRun (.jp nnn) ∧ nnn.toNat = s.pc.toNat

/-- `k` steps of the engine, stopping where one does not answer a next state. -/
def runSteps : Nat → State → Host.Outcome State Fault Refusal
  | 0, s => .next s
  | k + 1, s =>
    match step s with
    | .next s' => runSteps k s'
    | .fault r => .fault r
    | .refused r => .refused r

end Sys2Proof.Machine
end

