-- ==== Sys2Proof/Certificates/Slice0/Obligations.lean ====
section
/-! DEFINITION. The statements for the provers. Each docstring names the rule of spec/ it formalises, and,
where it rests on a decision of the spec's own (92_eei_decisions.md D<n>) or on a log entry of the model,
says so. -/

open Sys2Proof Sys2Proof.Machine

/-! ## Encoding -/

/-- 30_encoding.md R53 and R54: decoding the word of a well-formed instruction gives it back. Rests on the
spec's D13 (every literal digit must match). -/
def Obligations.DecodeOfEncode : Prop :=
  ∀ i : Instr, i.wf = true → decode (encode i) = .ok i

/-- 30_encoding.md R57: no word matches two patterns, so a word that decodes is the word of its
instruction, and that instruction is well formed. The spec derives R57 itself. -/
def Obligations.EncodeOfDecode : Prop :=
  ∀ (w : Word) (i : Instr), decode w = .ok i → encode i = w ∧ i.wf = true

/-- 30_encoding.md R55: exactly the listed words are invalid, each rejected by its own raw value. Rests on
the spec's D12 and D13. -/
def Obligations.InvalidSpaceOfDecode : Prop :=
  ∀ w : Word,
    let op := w.toNat / 4096
    let n := w.toNat % 16
    let kk := w.toNat % 256
    decode w = .error (.invalidOpcode w) ↔
      (op = 0x0 ∧ w.toNat ≠ 0x00E0 ∧ w.toNat ≠ 0x00EE) ∨ (op = 0x5 ∧ n ≠ 0) ∨
      (op = 0x8 ∧ n ∈ [0x8, 0x9, 0xA, 0xB, 0xC, 0xD, 0xF]) ∨ (op = 0x9 ∧ n ≠ 0) ∨
      (op = 0xE ∧ kk ∉ [0x9E, 0xA1]) ∨
      (op = 0xF ∧ kk ∉ [0x07, 0x0A, 0x15, 0x18, 0x1E, 0x29, 0x33, 0x55, 0x65])

/-- Words of 95_test_vectors.md, one or more of each format of 30_encoding.md R53: 2.1 E1 to E3, E6 to E10, E13,
E16, E19 and E20, and 2.5 A1 (format XK). The invalid ones rest on the spec's D12 and D13; the term of
SHL keeps the y field that D16 ignores (log 3). -/
def Obligations.VectorWordsDecode : Prop :=
  decode 0x00E0 = .ok .cls ∧ decode 0x00EE = .ok .ret ∧
  decode 0x0000 = .error (.invalidOpcode 0x0000) ∧ decode 0x1ABC = .ok (.jp 0xABC) ∧
  decode 0xD12A = .ok (.drw 1 2 10) ∧ decode 0xD120 = .ok (.drw 1 2 0) ∧
  decode 0x5121 = .error (.invalidOpcode 0x5121) ∧ decode 0x5120 = .ok (.seReg 1 2) ∧
  decode 0x812E = .ok (.shl 1 2) ∧ decode 0xE1A1 = .ok (.sknp 1) ∧
  decode 0xFF65 = .ok (.ldRegs 15) ∧ decode 0xB123 = .ok (.jpV0 0x123) ∧
  decode 0x6A2A = .ok (.ldImm 10 0x2A)

/-! ## The cycle -/

/-- 30_encoding.md R60: a step fetches big-endian at PC, decodes, executes that instruction, and ends the
cycle on what it leaves. A stop of the model ends the step too (log 2), and no instruction is refused.
Rests on the spec's D5 and D9. -/
def Obligations.StepRunsDecodedInstruction : Prop :=
  ∀ (s : State) (i : Instr), s.willRun i →
    (∀ t, exec i s = .next t → step s = .next t.endCycle) ∧
    (∀ r, exec i s = .fault r → step s = .fault r) ∧
    (∀ r, exec i s ≠ .refused r)

/-- 60_exceptions.md R146 and R147, 30_encoding.md R60: what ends a cycle. Both timers fall by one with a
floor at zero when `cycles` is a multiple of 8, with one Beep when ST is 1; `cycles` rises by one; a
faulted cycle ends with nothing. Rests on the spec's D9, D24 (phase) and D25 (beep); the count of Beeps is
the model's own (log 5). -/
def Obligations.CycleEndTicksTimers : Prop :=
  ∀ u : State,
    (u.fault ≠ none → u.endCycle = u) ∧
    (u.fault = none →
      u.endCycle.cycles = u.cycles + 1 ∧ onlyChanges [.dt, .st, .beeps, .cycles] u u.endCycle ∧
      (u.cycles % 8 = 0 →
        u.endCycle.dt.toNat = u.dt.toNat - 1 ∧ u.endCycle.st.toNat = u.st.toNat - 1 ∧
        u.endCycle.beeps = u.beeps + (if u.st.toNat = 1 then 1 else 0)) ∧
      (u.cycles % 8 ≠ 0 →
        u.endCycle.dt = u.dt ∧ u.endCycle.st = u.st ∧ u.endCycle.beeps = u.beeps))

/-- 60_exceptions.md R130, R131 and R133, 20_memory.md R35: a fetch beyond memory latches FETCH_RANGE with no
opcode, and only a fetched word that does not decode latches INVALID_OPCODE. Nothing else changes.
Rests on the spec's D5, D9, D10 and D11. -/
def Obligations.FetchAndDecodeFaultsLatch : Prop :=
  ∀ s : State, s.run = .running → s.fault = none →
    let beyond : FaultRecord :=
      { code := .fetchRange, pc := s.pc, opcode := none, info := s.pc.toNat }
    let invalid : FaultRecord :=
      { code := .invalidOpcode, pc := s.pc, opcode := some s.wordAtPc, info := s.wordAtPc.toNat }
    (0xFFE < s.pc.toNat → step s = .next { s with fault := some beyond }) ∧
    (s.pc.toNat ≤ 0xFFE → decode s.wordAtPc = .error (.invalidOpcode s.wordAtPc) →
      step s = .next { s with fault := some invalid })

/-- 60_exceptions.md R132: in the faulted state a step changes nothing, and no host action but reset clears
the latch. Rests on the spec's D9 and D31. -/
def Obligations.FaultedStateLastsUntilReset : Prop :=
  (∀ s : State, s.fault ≠ none → step s = .next s) ∧
  (∀ a h h' r, hostAct a h = .next (h', r) → h.block.fault ≠ none → a ≠ .reset →
    h'.block.fault = h.block.fault)

/-- 60_exceptions.md R158: in Paused a step is a no-op, and only PauseToggle or Reset leaves Paused. -/
def Obligations.PausedStateLastsUntilHostLeavesIt : Prop :=
  (∀ s : State, s.run = .paused → step s = .next s) ∧
  (∀ a h h' r, hostAct a h = .next (h', r) → h.block.run = .paused → h'.block.run = .running →
    a = .pauseToggle ∨ a = .reset)

/-- 60_exceptions.md R131: a cycle that faults changes nothing but the latch; the record holds its PC, and
an opcode in every case but FETCH_RANGE. Rests on the spec's D9 and D35. -/
def Obligations.FaultingCycleChangesOnlyLatch : Prop :=
  ∀ (s t : State) (f : FaultRecord), s.fault = none → step s = .next t → t.fault = some f →
    t = { s with fault := some f } ∧ f.pc = s.pc ∧ (f.opcode = none ↔ f.code = .fetchRange)

/-- 60_exceptions.md R130: the causes and their numbers; which instructions raise which cause during
execution, and with what info. Rests on the spec's D3, D4, D8, D10 and D22; the recorded opcode is the
instruction's word (log 3). -/
def Obligations.ExecutionFaultCauses : Prop :=
  [FaultCode.invalidOpcode, .fetchRange, .memRange, .protectedWrite, .stackOverflow, .stackUnderflow,
    .keyRange].map FaultCode.number = [1, 2, 3, 4, 5, 6, 7] ∧
  ∀ (i : Instr) (s t : State) (f : FaultRecord),
    s.fault = none → exec i s = .next t → t.fault = some f →
    t = { s with fault := some f } ∧ f = faultBy i s f.code f.info ∧
    match f.code with
    | .invalidOpcode => False
    | .fetchRange => False
    | .memRange => ((∃ x y n, i = .drw x y n) ∨ (∃ x, i = .ldB x) ∨ (∃ x, i = .stRegs x) ∨
        (∃ x, i = .ldRegs x)) ∧ f.info = max s.i.toNat 0x1000
    | .protectedWrite => ((∃ x, i = .ldB x) ∨ (∃ x, i = .stRegs x)) ∧ f.info = s.i.toNat ∧
        f.info < 0x200
    | .stackOverflow => (∃ nnn, i = .call nnn) ∧ 16 ≤ s.sp.toNat ∧ f.info = s.pc.toNat
    | .stackUnderflow => i = .ret ∧ s.sp.toNat = 0 ∧ f.info = s.pc.toNat
    | .keyRange => (∃ x, (i = .skp x ∨ i = .sknp x) ∧ f.info = (s.readReg x).toNat) ∧ 0xF < f.info

/-- 30_encoding.md R61: the new PC of every instruction, and that a faulting one leaves PC unchanged. The entry
that RET pops, STACK[SP − 1], is 10_state.md R16's and rests on the spec's D7; the row of LD Vx, K rests on
its resolution C2 (90_conflicts.md), the sums on D34. -/
def Obligations.PcAdvanceContract : Prop :=
  ∀ (i : Instr) (s t : State), s.fault = none → exec i s = .next t →
    (t.fault ≠ none → t.pc = s.pc) ∧
    (t.fault = none →
      match i with
      | .jp nnn | .call nnn => t.pc.toNat = nnn.toNat
      | .jpV0 nnn => t.pc.toNat = nnn.toNat + (s.readReg 0).toNat
      | .ret => ∀ j : Fin 16, s.sp.toNat = j.val + 1 → t.pc = s.stack[j] + 2
      | .seImm x kk => t.pc = if s.readReg x = kk then s.pc + 4 else s.pc + 2
      | .sneImm x kk => t.pc = if s.readReg x = kk then s.pc + 2 else s.pc + 4
      | .seReg x y => t.pc = if s.readReg x = s.readReg y then s.pc + 4 else s.pc + 2
      | .sneReg x y => t.pc = if s.readReg x = s.readReg y then s.pc + 2 else s.pc + 4
      | .skp x => ∀ k : KeyCode, (s.readReg x).toNat = k.val →
          t.pc = if s.key[k] then s.pc + 4 else s.pc + 2
      | .sknp x => ∀ k : KeyCode, (s.readReg x).toNat = k.val →
          t.pc = if s.key[k] then s.pc + 2 else s.pc + 4
      | .ldK _ => ((∃ k : KeyCode, s.key[k] = true) → t.pc = s.pc + 2) ∧
          ((∀ k : KeyCode, s.key[k] = false) → t.pc = s.pc)
      | .cls | .ldImm _ _ | .addImm _ _ | .ldReg _ _ | .orReg _ _ | .andReg _ _ | .xorReg _ _
      | .addReg _ _ | .sub _ _ | .shr _ _ | .subn _ _ | .shl _ _ | .ldI _ | .rnd _ _ | .drw _ _ _
      | .ldVxDt _ | .ldDt _ | .ldSt _ | .addI _ | .ldF _ | .ldB _ | .stRegs _ | .ldRegs _ =>
        t.pc = s.pc + 2)

/-! ## The whole machine -/

/-- Every step keeps the invariant: canonical memory with its reserved region intact (20_memory.md R31), SP
at most 16 (10_state.md R14), return addresses that can be fetched, PC at most 0x10FE (10_state.md R13,
93_implementation_defined.md U23), and a fault record at PC (60_exceptions.md R131). Rests on the spec's
D4, D5, D7, D8 and D9 and on the form of the memory list (log 8). -/
def Obligations.StepKeepsInv : Prop :=
  ∀ s t : State, s.Inv → step s = .next t → t.Inv

/-- The state after power-on meets the invariant (10_state.md R28). -/
def Obligations.ResetMeetsInv : Prop := State.reset.Inv

/-- From every state of the invariant a step answers a next state: the engine never stops the model
(60_exceptions.md R131: every fault is a latch; log 1 and log 2). -/
def Obligations.StepAlwaysAnswers : Prop :=
  ∀ s : State, s.Inv → ∃ t, step s = .next t

/-- 20_memory.md R31: no step alters a byte of the reserved region. The spec enforces it by D4. -/
def Obligations.ReservedRegionNeverAltered : Prop :=
  ∀ s t : State, step s = .next t → ∀ a, a < 0x200 → t.readByte a = s.readByte a

/-- 10_state.md R20: of all steps, only those that run 00E0 or Dxyn change the framebuffer. -/
def Obligations.FramebufferChangedOnlyByDisplay : Prop :=
  ∀ s t : State, step s = .next t → t.fb ≠ s.fb →
    s.willRun .cls ∨ ∃ x y n, s.willRun (.drw x y n)

/-- 10_state.md R14 and R15: of all steps, only those that run CALL or RET change SP or the stack, and
RET changes no entry. Rests on the spec's D7. -/
def Obligations.StackChangedOnlyByCallAndReturn : Prop :=
  ∀ s t : State, step s = .next t →
    (t.sp ≠ s.sp → s.willRun .ret ∨ ∃ nnn, s.willRun (.call nnn)) ∧
    (t.stack ≠ s.stack → ∃ nnn, s.willRun (.call nnn))

/-- 10_state.md R21 and R23: no step changes the keypad or the run state. -/
def Obligations.StepLeavesKeypadAndRunState : Prop :=
  ∀ s t : State, step s = .next t → t.key = s.key ∧ t.run = s.run

/-- 10_state.md R11: an instruction that changes VF is one of the seven flag writers or names VF as its
destination. Rests on the spec's D15. -/
def Obligations.FlagRegisterWriters : Prop :=
  ∀ (i : Instr) (s t : State), exec i s = .next t → t.readReg 0xF ≠ s.readReg 0xF →
    match i with
    | .addReg _ _ | .sub _ _ | .shr _ _ | .subn _ _ | .shl _ _ | .addI _ | .drw _ _ _ => True
    | .ldImm x _ | .addImm x _ | .ldReg x _ | .orReg x _ | .andReg x _ | .xorReg x _ | .rnd x _
    | .ldVxDt x | .ldK x | .ldRegs x => x = 0xF
    | .cls | .ret | .jp _ | .call _ | .seImm _ _ | .sneImm _ _ | .seReg _ _ | .sneReg _ _ | .ldI _
    | .jpV0 _ | .skp _ | .sknp _ | .ldDt _ | .ldSt _ | .ldF _ | .ldB _ | .stRegs _ => False

/-- 20_memory.md R43: two bytes stored by Fx55 are the word fetched when PC comes to address them. Rests on
the spec's D36. -/
def Obligations.FetchSeesStoredWord : Prop :=
  ∀ (x k : Reg) (s : State), s.mem.wf = true → 0x200 ≤ s.i.toNat → s.i.toNat + x.val < 0x1000 →
    ∀ hk : k.val < x.val, ∃ t, exec (.stRegs x) s = .next t ∧
      ∀ u : State, u.mem = t.mem → u.pc.toNat = s.i.toNat + k.val →
        u.fetchWord = .ok (s.readReg k ++ s.readReg ⟨k.val + 1, by have := x.isLt; omega⟩)

/-- 70_reset_and_hazards.md R165 (b): a spinning engine spins forever, and its steps change only DT, ST, `cycles`
and the record of Beeps. Rests on the spec's D39; that spinning takes a Running engine is the model's choice
(log 14), and the record is the model's (log 5). -/
def Obligations.SpinningRunsForever : Prop :=
  ∀ (s : State) (k : Nat), s.spinning →
    ∃ t, runSteps k s = .next t ∧ t.spinning ∧ t.cycles = s.cycles + k ∧
      onlyChanges [.dt, .st, .beeps, .cycles] s t

/-! ## Display -/

/-- 40_display.md R76. That nothing else is written, VF included, rests on the spec's D15 too. -/
def Obligations.ClsClearsScreen : Prop :=
  (encode .cls).toNat = 0x00E0 ∧
  ∀ s : State, ∃ t, exec .cls s = .next t ∧
    (∀ j, j < 2048 → t.fb.getLsbD j = false) ∧ t.newFrame = true ∧ t.pc = s.pc + 2 ∧
    onlyChanges [.fb, .newFrame, .pc] s t

/-- 40_display.md R77: DRW changes exactly the on-screen pixels under the sprite's 1 bits, and VF is 1 exactly
when one of them was lit. Rests on the spec's D14 and D21 (bit order, no wrap, VF ← 0), and on D3 for the range. -/
def Obligations.DrwDrawsSprite : Prop :=
  ∀ (x y : Reg) (n : Nat) (s : State), n < 16 → (n = 0 ∨ s.i.toNat + n ≤ 0x1000) →
    let covers := spriteCovers s (s.readReg x).toNat (s.readReg y).toNat n
    ∃ t, exec (.drw x y n) s = .next t ∧
      (∀ px py, px < 64 → py < 32 → (t.fb.read px py ≠ s.fb.read px py ↔ covers px py)) ∧
      ((∃ px py, px < 64 ∧ py < 32 ∧ covers px py ∧ s.fb.read px py = true) → t.readReg 0xF = 1) ∧
      ((∀ px py, px < 64 → py < 32 → covers px py → s.fb.read px py = false) → t.readReg 0xF = 0) ∧
      onlyWritesRegs [0xF] s t ∧ t.newFrame = true ∧ t.pc = s.pc + 2 ∧
      onlyChanges [.v, .fb, .newFrame, .pc] s t

/-- 40_display.md R77, corner case: drawing twice at one place restores the framebuffer. The second draw
collides exactly when a pixel under the sprite was dark before the first: R77's pseudocode gives that, and its
sentence on the corner case is wider (log 13). Rests on the spec's D21. -/
def Obligations.DrwTwiceRestoresScreen : Prop :=
  ∀ (x y : Reg) (n : Nat) (s : State), n < 16 → (n = 0 ∨ s.i.toNat + n ≤ 0x1000) →
    x ≠ 0xF → y ≠ 0xF →
    let covers := spriteCovers s (s.readReg x).toNat (s.readReg y).toNat n
    ∃ t u, exec (.drw x y n) s = .next t ∧ exec (.drw x y n) t = .next u ∧ u.fb = s.fb ∧
      ((∃ px py, px < 64 ∧ py < 32 ∧ covers px py ∧ s.fb.read px py = false) → u.readReg 0xF = 1) ∧
      ((∀ px py, px < 64 → py < 32 → covers px py → s.fb.read px py = true) → u.readReg 0xF = 0)

/-- 40_display.md R71 to R73: the controller's read, write and invert, at every exact coordinate. Rests on the
spec's D38 for the write that nothing uses. -/
def Obligations.FramebufferControllerContract : Prop :=
  ∀ (fb : Framebuffer) (x y : Nat) (b : Bool),
    (x < 64 ∧ y < 32 → fb.read x y = fb.getLsbD (x + 64 * y) ∧
      (∀ j, j < 2048 → (fb.write x y b).getLsbD j = if j = x + 64 * y then b else fb.getLsbD j) ∧
      (∀ j, j < 2048 → (fb.invert x y).getLsbD j =
        if j = x + 64 * y then !fb.getLsbD j else fb.getLsbD j)) ∧
    (¬ (x < 64 ∧ y < 32) → fb.read x y = false ∧ fb.write x y b = fb ∧ fb.invert x y = fb) ∧
    (fb.invert x y).invert x y = fb

/-! ## Control flow -/

/-- 41_control_flow.md R80 and 10_state.md R16, a stack of 1 to 16 entries. Rests on the spec's D7. -/
def Obligations.RetResumesAfterCall : Prop :=
  ∀ (s : State) (j : Fin 16), s.sp.toNat = j.val + 1 →
    ∃ t, exec .ret s = .next t ∧ t.pc = s.stack[j] + 2 ∧ t.sp.toNat = j.val ∧
      onlyChanges [.pc, .sp] s t

/-- 41_control_flow.md R82 and 10_state.md R16, a stack of 0 to 15 entries. Rests on the spec's D7. -/
def Obligations.CallPushesOwnAddress : Prop :=
  ∀ (nnn : Addr12) (s : State) (j : Fin 16), s.sp.toNat = j.val →
    ∃ t, exec (.call nnn) s = .next t ∧ t.pc.toNat = nnn.toNat ∧ t.stack[j] = s.pc ∧
      (∀ k : Fin 16, k ≠ j → t.stack[k] = s.stack[k]) ∧ t.sp.toNat = j.val + 1 ∧
      onlyChanges [.pc, .stack, .sp] s t

/-- 10_state.md R16: overflow and underflow. Rests on the spec's D8. With SP above 16, which no run reaches
and for which the spec gives no entry, RET stops the model: the model's choice, log 2. -/
def Obligations.StackBoundsTrap : Prop :=
  ∀ (nnn : Addr12) (s : State),
    (16 ≤ s.sp.toNat → exec (.call nnn) s = .next
      { s with fault := some (faultBy (.call nnn) s .stackOverflow s.pc.toNat) }) ∧
    (s.sp.toNat = 0 → exec .ret s = .next
      { s with fault := some (faultBy .ret s .stackUnderflow s.pc.toNat) }) ∧
    (16 < s.sp.toNat → exec .ret s = .fault .stackPointerIllegal)

/-- 41_control_flow.md R81. -/
def Obligations.JpSetsPc : Prop :=
  ∀ (nnn : Addr12) (s : State), (encode (.jp nnn)).toNat = 0x1000 + nnn.toNat ∧
    ∃ t, exec (.jp nnn) s = .next t ∧ t.pc.toNat = nnn.toNat ∧ onlyChanges [.pc] s t

/-- 41_control_flow.md R87: the sum is not reduced to 12 bits. Rests on the spec's D34. -/
def Obligations.JpV0AddsV0 : Prop :=
  ∀ (nnn : Addr12) (s : State), ∃ t, exec (.jpV0 nnn) s = .next t ∧
    t.pc.toNat = nnn.toNat + (s.readReg 0).toNat ∧ onlyChanges [.pc] s t

/-- 41_control_flow.md R83 and R84. -/
def Obligations.ImmediateSkips : Prop :=
  ∀ (x : Reg) (kk : Byte) (s : State),
    (encode (.seImm x kk)).toNat = 0x3000 + 256 * x.val + kk.toNat ∧
    (encode (.sneImm x kk)).toNat = 0x4000 + 256 * x.val + kk.toNat ∧
    (∃ t, exec (.seImm x kk) s = .next t ∧
      t.pc = (if s.readReg x = kk then s.pc + 4 else s.pc + 2) ∧ onlyChanges [.pc] s t) ∧
    (∃ t, exec (.sneImm x kk) s = .next t ∧
      t.pc = (if s.readReg x ≠ kk then s.pc + 4 else s.pc + 2) ∧ onlyChanges [.pc] s t)

/-- 41_control_flow.md R85 and R86, with the words of another low nibble invalid (the spec's D13). -/
def Obligations.RegisterSkips : Prop :=
  ∀ (x y : Reg) (s : State),
    (∀ n, n < 16 → ∀ w : Word, w.toNat = 0x5000 + 256 * x.val + 16 * y.val + n →
      decode w = if n = 0 then .ok (.seReg x y) else .error (.invalidOpcode w)) ∧
    (∀ n, n < 16 → ∀ w : Word, w.toNat = 0x9000 + 256 * x.val + 16 * y.val + n →
      decode w = if n = 0 then .ok (.sneReg x y) else .error (.invalidOpcode w)) ∧
    (∃ t, exec (.seReg x y) s = .next t ∧
      t.pc = (if s.readReg x = s.readReg y then s.pc + 4 else s.pc + 2) ∧ onlyChanges [.pc] s t) ∧
    (∃ t, exec (.sneReg x y) s = .next t ∧
      t.pc = (if s.readReg x ≠ s.readReg y then s.pc + 4 else s.pc + 2) ∧ onlyChanges [.pc] s t)

/-! ## Register loads and ALU -/

/-- 42_alu.md R91. -/
def Obligations.LdImmLoadsImmediate : Prop :=
  ∀ (x : Reg) (kk : Byte) (s : State),
    (encode (.ldImm x kk)).toNat = 0x6000 + 256 * x.val + kk.toNat ∧
    ∃ t, exec (.ldImm x kk) s = .next t ∧ t.readReg x = kk ∧ onlyWritesRegs [x] s t ∧
      t.pc = s.pc + 2 ∧ onlyChanges [.v, .pc] s t

/-- 42_alu.md R92: the sum modulo 256; VF is unchanged unless it is Vx. Rests on the spec's D15. -/
def Obligations.AddImmWraps : Prop :=
  ∀ (x : Reg) (kk : Byte) (s : State),
    ∃ t, exec (.addImm x kk) s = .next t ∧
      (t.readReg x).toNat = ((s.readReg x).toNat + kk.toNat) % 256 ∧ onlyWritesRegs [x] s t ∧
      t.pc = s.pc + 2 ∧ onlyChanges [.v, .pc] s t

/-- 42_alu.md R93. -/
def Obligations.LdRegCopies : Prop :=
  ∀ (x y : Reg) (s : State),
    (encode (.ldReg x y)).toNat = 0x8000 + 256 * x.val + 16 * y.val ∧
    ∃ t, exec (.ldReg x y) s = .next t ∧ t.readReg x = s.readReg y ∧ onlyWritesRegs [x] s t ∧
      t.pc = s.pc + 2 ∧ onlyChanges [.v, .pc] s t

/-- 42_alu.md R94 to R96, bit by bit; VF is unchanged unless it is Vx. Rests on the spec's D15. -/
def Obligations.LogicIsBitwise : Prop :=
  ∀ (x y : Reg) (s : State),
    (∃ t, exec (.orReg x y) s = .next t ∧
      (∀ b, b < 8 → (t.readReg x).getLsbD b = ((s.readReg x).getLsbD b || (s.readReg y).getLsbD b)) ∧
      onlyWritesRegs [x] s t ∧ t.pc = s.pc + 2 ∧ onlyChanges [.v, .pc] s t) ∧
    (∃ t, exec (.andReg x y) s = .next t ∧
      (∀ b, b < 8 → (t.readReg x).getLsbD b = ((s.readReg x).getLsbD b && (s.readReg y).getLsbD b)) ∧
      onlyWritesRegs [x] s t ∧ t.pc = s.pc + 2 ∧ onlyChanges [.v, .pc] s t) ∧
    (∃ t, exec (.xorReg x y) s = .next t ∧
      (∀ b, b < 8 → (t.readReg x).getLsbD b = ((s.readReg x).getLsbD b ^^ (s.readReg y).getLsbD b)) ∧
      onlyWritesRegs [x] s t ∧ t.pc = s.pc + 2 ∧ onlyChanges [.v, .pc] s t)

/-- 42_alu.md R97. The flag is what VF keeps when x is 0xF: the spec's D14. -/
def Obligations.AddRegCarries : Prop :=
  ∀ (x y : Reg) (s : State),
    let sum := (s.readReg x).toNat + (s.readReg y).toNat
    ∃ t, exec (.addReg x y) s = .next t ∧
      (x ≠ 0xF → (t.readReg x).toNat = sum % 256) ∧
      (t.readReg 0xF).toNat = (if sum > 255 then 1 else 0) ∧
      onlyWritesRegs [x, 0xF] s t ∧ t.pc = s.pc + 2 ∧ onlyChanges [.v, .pc] s t

/-- 42_alu.md R98 and R100, Vx − Vy and Vy − Vx with NOT borrow. Rests on the spec's D14 and D17. -/
def Obligations.SubtractsWithNotBorrow : Prop :=
  ∀ (x y : Reg) (s : State),
    let a := (s.readReg x).toNat
    let b := (s.readReg y).toNat
    (∃ t, exec (.sub x y) s = .next t ∧
      (x ≠ 0xF → ((t.readReg x).toNat : Int) = ((a : Int) - b) % 256) ∧
      (t.readReg 0xF).toNat = (if b > a then 0 else 1) ∧
      onlyWritesRegs [x, 0xF] s t ∧ t.pc = s.pc + 2 ∧ onlyChanges [.v, .pc] s t) ∧
    (∃ t, exec (.subn x y) s = .next t ∧
      (x ≠ 0xF → ((t.readReg x).toNat : Int) = ((b : Int) - a) % 256) ∧
      (t.readReg 0xF).toNat = (if a > b then 0 else 1) ∧
      onlyWritesRegs [x, 0xF] s t ∧ t.pc = s.pc + 2 ∧ onlyChanges [.v, .pc] s t)

/-- 42_alu.md R99 and R101: one-bit logical shifts of Vx, with y ignored. Rests on the spec's D14 and D16. -/
def Obligations.ShiftsByOne : Prop :=
  ∀ (x y : Reg) (s : State),
    let a := (s.readReg x).toNat
    (∃ t, exec (.shr x y) s = .next t ∧ (x ≠ 0xF → (t.readReg x).toNat = a / 2) ∧
      (t.readReg 0xF).toNat = a % 2 ∧
      onlyWritesRegs [x, 0xF] s t ∧ t.pc = s.pc + 2 ∧ onlyChanges [.v, .pc] s t) ∧
    (∃ t, exec (.shl x y) s = .next t ∧ (x ≠ 0xF → (t.readReg x).toNat = (2 * a) % 256) ∧
      (t.readReg 0xF).toNat = a / 128 ∧
      onlyWritesRegs [x, 0xF] s t ∧ t.pc = s.pc + 2 ∧ onlyChanges [.v, .pc] s t)

/-- 42_alu.md R102 and 60_exceptions.md R152: one draw, whatever it is, masked by kk. The draw is a free value
(the spec's D26, log 6): nothing here depends on what it is. -/
def Obligations.RndMasksOneDraw : Prop :=
  ∀ (x : Reg) (kk : Byte) (s : State),
    ∃ t, exec (.rnd x kk) s = .next t ∧
      (∀ b, b < 8 → (t.readReg x).getLsbD b = ((Config.randByte s.draws).getLsbD b && kk.getLsbD b)) ∧
      t.draws = s.draws + 1 ∧ onlyWritesRegs [x] s t ∧ t.pc = s.pc + 2 ∧
      onlyChanges [.v, .pc, .draws] s t

/-! ## Index register and memory transfers -/

/-- 43_index_memory.md R110. -/
def Obligations.LdILoadsAddress : Prop :=
  ∀ (nnn : Addr12) (s : State), (encode (.ldI nnn)).toNat = 0xA000 + nnn.toNat ∧
    ∃ t, exec (.ldI nnn) s = .next t ∧ t.i.toNat = nnn.toNat ∧ t.pc = s.pc + 2 ∧
      onlyChanges [.i, .pc] s t

/-- 43_index_memory.md R111: I to 16 bits, VF by the exact sum. Rests on the spec's D14, D18 and D34. -/
def Obligations.AddIFlagsOverflow : Prop :=
  ∀ (x : Reg) (s : State),
    let sum := s.i.toNat + (s.readReg x).toNat
    ∃ t, exec (.addI x) s = .next t ∧ t.i.toNat = sum % 65536 ∧
      (t.readReg 0xF).toNat = (if sum > 0xFFF then 1 else 0) ∧ onlyWritesRegs [0xF] s t ∧
      t.pc = s.pc + 2 ∧ onlyChanges [.v, .i, .pc] s t

/-- 43_index_memory.md R112: all of V[x]. Rests on the spec's D19. -/
def Obligations.LdFPointsAtGlyph : Prop :=
  ∀ (x : Reg) (s : State), ∃ t, exec (.ldF x) s = .next t ∧ t.i.toNat = (s.readReg x).toNat * 5 ∧
    t.pc = s.pc + 2 ∧ onlyChanges [.i, .pc] s t

/-- 43_index_memory.md R113, where its three addresses can be written; the stored address is I. Rests on the
spec's D20, and on D3 and D4 for the range. The premise `wf` is the invariant's (log 8). -/
def Obligations.LdBStoresDigits : Prop :=
  ∀ (x : Reg) (s : State), s.mem.wf = true → 0x200 ≤ s.i.toNat → s.i.toNat + 2 ≤ 0xFFF →
    let v := (s.readReg x).toNat
    ∃ t, exec (.ldB x) s = .next t ∧
      (t.readByte s.i.toNat).toNat = v / 100 ∧
      (t.readByte (s.i.toNat + 1)).toNat = v / 10 % 10 ∧
      (t.readByte (s.i.toNat + 2)).toNat = v % 10 ∧
      onlyStoresTo s.i.toNat 3 s t ∧ t.pc = s.pc + 2 ∧ onlyChanges [.mem, .pc] s t

/-- 43_index_memory.md R114, where its x + 1 addresses can be written; the stored address is I. Rests on the
spec's D3, D4 and D35 for the range of the addresses. The premise `wf` is the invariant's (log 8). -/
def Obligations.StRegsStoresRegisters : Prop :=
  ∀ (x : Reg) (s : State), s.mem.wf = true → 0x200 ≤ s.i.toNat → s.i.toNat + x.val ≤ 0xFFF →
    ∃ t, exec (.stRegs x) s = .next t ∧
      (∀ k : Reg, k ≤ x → t.readByte (s.i.toNat + k.val) = s.readReg k) ∧
      onlyStoresTo s.i.toNat (x.val + 1) s t ∧ t.i.toNat = s.i.toNat + x.val + 1 ∧
      t.pc = s.pc + 2 ∧ onlyChanges [.mem, .i, .pc] s t

/-- 43_index_memory.md R115, where its x + 1 addresses can be read. Rests on the spec's D3 for their range. -/
def Obligations.LdRegsLoadsRegisters : Prop :=
  ∀ (x : Reg) (s : State), s.i.toNat + x.val ≤ 0xFFF →
    ∃ t, exec (.ldRegs x) s = .next t ∧
      (∀ k : Reg, k ≤ x → t.readReg k = s.readByte (s.i.toNat + k.val)) ∧
      (∀ k : Reg, x < k → t.readReg k = s.readReg k) ∧ t.i.toNat = s.i.toNat + x.val + 1 ∧
      t.pc = s.pc + 2 ∧ onlyChanges [.v, .i, .pc] s t

/-- 20_memory.md R34 and R40, 43_index_memory.md R113 and R114: a store that starts below 0x200, or reaches
above 0xFFF, latches the first failing address and changes nothing else. Rests on the spec's D3, D4 and
D35. -/
def Obligations.StoresOutsideProgramRegionTrap : Prop :=
  ∀ (x : Reg) (s : State),
    (s.i.toNat < 0x200 →
      exec (.ldB x) s = .next
        { s with fault := some (faultBy (.ldB x) s .protectedWrite s.i.toNat) } ∧
      exec (.stRegs x) s = .next
        { s with fault := some (faultBy (.stRegs x) s .protectedWrite s.i.toNat) }) ∧
    (0x200 ≤ s.i.toNat → 0xFFF < s.i.toNat + 2 →
      exec (.ldB x) s = .next
        { s with fault := some (faultBy (.ldB x) s .memRange (max s.i.toNat 0x1000)) }) ∧
    (0x200 ≤ s.i.toNat → 0xFFF < s.i.toNat + x.val →
      exec (.stRegs x) s = .next
        { s with fault := some (faultBy (.stRegs x) s .memRange (max s.i.toNat 0x1000)) })

/-- 20_memory.md R33 and R40, 40_display.md R77, 43_index_memory.md R115: a read that reaches above 0xFFF
latches the first such address and changes nothing else. Rests on the spec's D3 and D35. -/
def Obligations.ReadsBeyondMemoryTrap : Prop :=
  ∀ (x y : Reg) (n : Nat) (s : State), n < 16 →
    (1 ≤ n → 0xFFF < s.i.toNat + n - 1 →
      exec (.drw x y n) s = .next
        { s with fault := some (faultBy (.drw x y n) s .memRange (max s.i.toNat 0x1000)) }) ∧
    (0xFFF < s.i.toNat + x.val →
      exec (.ldRegs x) s = .next
        { s with fault := some (faultBy (.ldRegs x) s .memRange (max s.i.toNat 0x1000)) })

/-! ## Keypad and timers -/

/-- 44_keypad_timers.md R120 and R121, with a key code in V[x]. Rests on the spec's D22 for the range. -/
def Obligations.KeySkipsTestLevel : Prop :=
  ∀ (x : Reg) (k : KeyCode) (s : State), (s.readReg x).toNat = k.val →
    (∃ t, exec (.skp x) s = .next t ∧
      t.pc = (if s.key[k] = true then s.pc + 4 else s.pc + 2) ∧ onlyChanges [.pc] s t) ∧
    (∃ t, exec (.sknp x) s = .next t ∧
      t.pc = (if s.key[k] = false then s.pc + 4 else s.pc + 2) ∧ onlyChanges [.pc] s t)

/-- 60_exceptions.md R150: SKP and SKNP with V[x] above 0xF latch KEY_RANGE. Rests on the spec's D22. -/
def Obligations.KeyCodeOutOfRangeTraps : Prop :=
  ∀ (x : Reg) (s : State), 0xF < (s.readReg x).toNat →
    exec (.skp x) s = .next
      { s with fault := some (faultBy (.skp x) s .keyRange (s.readReg x).toNat) } ∧
    exec (.sknp x) s = .next
      { s with fault := some (faultBy (.sknp x) s .keyRange (s.readReg x).toNat) }

/-- 44_keypad_timers.md R123: with a key pressed, the least code; with none, nothing changes. Rests on the
spec's D23. -/
def Obligations.LdKTakesLeastKeyOrWaits : Prop :=
  ∀ (x : Reg) (s : State),
    (∀ k : KeyCode, s.key[k] = true → (∀ j : KeyCode, j < k → s.key[j] = false) →
      ∃ t, exec (.ldK x) s = .next t ∧ (t.readReg x).toNat = k.val ∧ onlyWritesRegs [x] s t ∧
        t.pc = s.pc + 2 ∧ onlyChanges [.v, .pc] s t) ∧
    ((∀ k : KeyCode, s.key[k] = false) → exec (.ldK x) s = .next s)

/-- 44_keypad_timers.md R123 and 70_reset_and_hazards.md R167 (c): with no key pressed LD Vx, K waits for any number
of steps, each a complete cycle that counts and ticks, and nothing else changes. Rests on the spec's D23; the spec derives it
from R60; the record of Beeps is the model's (log 5). -/
def Obligations.KeyWaitRepeatsForever : Prop :=
  ∀ (x : Reg) (s : State) (k : Nat), s.willRun (.ldK x) → (∀ j : KeyCode, s.key[j] = false) →
    ∃ t, runSteps k s = .next t ∧ t.willRun (.ldK x) ∧ t.cycles = s.cycles + k ∧
      onlyChanges [.dt, .st, .beeps, .cycles] s t

/-- 44_keypad_timers.md R122: in a whole step too, Vx holds DT from before the cycle's decrement. -/
def Obligations.LdVxDtReadsTimer : Prop :=
  ∀ (x : Reg) (s : State), (encode (.ldVxDt x)).toNat = 0xF007 + 256 * x.val ∧
    (∃ t, exec (.ldVxDt x) s = .next t ∧ t.readReg x = s.dt ∧ onlyWritesRegs [x] s t ∧
      t.pc = s.pc + 2 ∧ onlyChanges [.v, .pc] s t) ∧
    (s.willRun (.ldVxDt x) → ∃ t, step s = .next t ∧ t.readReg x = s.dt)

/-- 44_keypad_timers.md R124 and R125: the writes, and what a step of them leaves on a tick cycle: the new value
already decremented, with a Beep when ST is set to 1. The tick clauses rest on the spec's D24 and D25 and
on its derivation from R60; the count of Beeps is the model's (log 5). -/
def Obligations.TimerWritesThenTick : Prop :=
  ∀ (x : Reg) (s : State),
    (∃ t, exec (.ldDt x) s = .next t ∧ t.dt = s.readReg x ∧ t.pc = s.pc + 2 ∧
      onlyChanges [.dt, .pc] s t) ∧
    (∃ t, exec (.ldSt x) s = .next t ∧ t.st = s.readReg x ∧ t.pc = s.pc + 2 ∧
      onlyChanges [.st, .pc] s t) ∧
    (s.willRun (.ldDt x) → s.cycles % 8 = 0 →
      ∃ t, step s = .next t ∧ t.dt.toNat = (s.readReg x).toNat - 1) ∧
    (s.willRun (.ldSt x) → s.cycles % 8 = 0 →
      ∃ t, step s = .next t ∧ t.st.toNat = (s.readReg x).toNat - 1 ∧
        t.beeps = s.beeps + (if (s.readReg x).toNat = 1 then 1 else 0))

/-! ## Reset and the host interface -/

/-- 20_memory.md R32 and R46: what memory holds after reset. The glyph bytes are the spec's default from general
knowledge (D27, log 7). -/
def Obligations.ResetMemoryContents : Prop :=
  (List.range 0x50).map State.reset.readByte =
    [0xF0, 0x90, 0x90, 0x90, 0xF0, 0x20, 0x60, 0x20, 0x20, 0x70, 0xF0, 0x10, 0xF0, 0x80, 0xF0,
      0xF0, 0x10, 0xF0, 0x10, 0xF0] ++
    [0x90, 0x90, 0xF0, 0x10, 0x10, 0xF0, 0x80, 0xF0, 0x10, 0xF0, 0xF0, 0x80, 0xF0, 0x90, 0xF0,
      0xF0, 0x10, 0x20, 0x40, 0x40] ++
    [0xF0, 0x90, 0xF0, 0x90, 0xF0, 0xF0, 0x90, 0xF0, 0x10, 0xF0, 0xF0, 0x90, 0xF0, 0x90, 0x90,
      0xE0, 0x90, 0xE0, 0x90, 0xE0] ++
    [0xF0, 0x80, 0x80, 0x80, 0xF0, 0xE0, 0x90, 0x90, 0x90, 0xE0, 0xF0, 0x80, 0xF0, 0x80, 0xF0,
      0xF0, 0x80, 0xF0, 0x80, 0x80] ∧
  ∀ a, 0x50 ≤ a → State.reset.readByte a = 0

/-- 10_state.md R28, 70_reset_and_hazards.md R160 to R162: the values after reset; the host's reset leaves KEY, does not
depend on anything else of the state before, and is idempotent. Rests on the spec's D9, D24, D29 and
D30. That `beeps` restarts and `draws` stays is the model's choice (log 5, log 6), and so is the bookkeeping of
what Reset permits (log 10). -/
def Obligations.ResetRestoresInitialState : Prop :=
  (∀ r : Reg, State.reset.readReg r = 0) ∧ State.reset.i = 0 ∧ State.reset.pc = 0x200 ∧
  State.reset.sp = 0 ∧ (∀ j : Fin 16, State.reset.stack[j] = 0) ∧ State.reset.dt = 0 ∧
  State.reset.st = 0 ∧ (∀ x y, State.reset.fb.read x y = false) ∧ State.reset.newFrame = true ∧
  State.reset.run = .running ∧ State.reset.cycles = 0 ∧ State.reset.fault = none ∧
  (∀ k : KeyCode, State.reset.key[k] = false) ∧
  ∀ h : Session, ∃ h', hostAct .reset h = .next (h', .done) ∧ h'.block.key = h.block.key ∧
    onlyChanges [.key, .draws] State.reset h'.block ∧ h'.block.draws = h.block.draws ∧
    hostAct .reset h' = .next (h', .done) ∧ h'.mayLoad = true ∧ h'.loadFailed = false

/-- 20_memory.md R45 and 60_exceptions.md R155: Reset permits a Load and a Step takes the permission away. A
permitted Load copies the bytes verbatim from 0x200 and nothing else; one that is too long reports LoadError
with the block unchanged. Rests on the spec's D28. That an action the spec calls illegal (a Load after a
step, a Step after a LoadError) is refused, and the bookkeeping for it, are the model's choice (log 10). The
premise `wf` is the invariant's (log 8). -/
def Obligations.LoadCopiesProgram : Prop :=
  ∀ (b : List Byte) (h : Session),
    (∃ h', hostAct .reset h = .next (h', .done) ∧ h'.mayLoad = true ∧ h'.loadFailed = false) ∧
    (h.mayLoad = true → b.length ≤ 3584 → h.block.mem.wf = true →
      ∃ h', hostAct (.load b) h = .next (h', .done) ∧
        (∀ k : Fin b.length, h'.block.readByte (0x200 + k.val) = b[k]) ∧
        onlyStoresTo 0x200 b.length h.block h'.block ∧ onlyChanges [.mem] h.block h'.block) ∧
    (h.mayLoad = true → 3584 < b.length →
      ∃ h', hostAct (.load b) h = .next (h', .loadError) ∧ h'.block = h.block ∧
        hostAct .step h' = .refused .stepAfterLoadError) ∧
    (h.mayLoad = false → hostAct (.load b) h = .refused .loadAfterStep) ∧
    (∀ h' r, hostAct .step h = .next (h', r) → h'.mayLoad = false)

/-- 60_exceptions.md R147, R151, R154, R155 and R159, action by action: when it is answered, what it writes and
what it reports. Reset, PauseToggle, the key events, the read-outs and the acknowledgements are answered in
every session; a Load that is answered reports by its length; a Step answers the engine's step, with the
number of Beeps of that step. Rests on the spec's D1, D2, D9, D25, D28, D29, D31 and D32. The refusals and
the bookkeeping are the model's choice (log 10), and so are the counts in `beeps` and `draws` (log 5, log 6)
and that a stop of the engine ends the Step (log 2). What a Load copies is LoadCopiesProgram's, the calls of
RenderFrame are RenderFrameScansRowMajor's. -/
def Obligations.HostActionsWriteOnlyTheirOwn : Prop :=
  ∀ (a : HostAction) (h : Session),
    match a with
    | .reset => ∃ h', hostAct .reset h = .next (h', .done) ∧ h'.mayLoad = true ∧
        h'.loadFailed = false ∧ h'.block.key = h.block.key ∧ h'.block.draws = h.block.draws ∧
        onlyChanges [.key, .draws] State.reset h'.block
    | .load b => ∀ h' r, hostAct (.load b) h = .next (h', r) → onlyChanges [.mem] h.block h'.block ∧
        h'.mayLoad = h.mayLoad ∧ r = (if 3584 < b.length then .loadError else .done) ∧
        h'.loadFailed = (h.loadFailed || decide (3584 < b.length))
    | .step => (h.loadFailed = true → hostAct .step h = .refused .stepAfterLoadError) ∧
        (h.loadFailed = false →
          (∀ s, step h.block = .next s → ∃ h' n, hostAct .step h = .next (h', .stepped n) ∧
            h'.block = s ∧ s.beeps = h.block.beeps + n ∧ h'.mayLoad = false ∧
            h'.loadFailed = false) ∧
          (∀ f, step h.block = .fault f → hostAct .step h = .fault f))
    | .pauseToggle => ∃ h', hostAct .pauseToggle h = .next (h', .done) ∧ Session.sameBooks h h' ∧
        onlyChanges [.run] h.block h'.block ∧
        h'.block.run = (if h.block.run = .running then .paused else .running)
    | .keyDown k => ∃ h', hostAct (.keyDown k) h = .next (h', .done) ∧ Session.sameBooks h h' ∧
        onlyChanges [.key] h.block h'.block ∧ h'.block.key[k] = true ∧
        ∀ j : KeyCode, j ≠ k → h'.block.key[j] = h.block.key[j]
    | .keyUp k => ∃ h', hostAct (.keyUp k) h = .next (h', .done) ∧ Session.sameBooks h h' ∧
        onlyChanges [.key] h.block h'.block ∧ h'.block.key[k] = false ∧
        ∀ j : KeyCode, j ≠ k → h'.block.key[j] = h.block.key[j]
    | .renderFrame => ∃ h' calls, hostAct .renderFrame h = .next (h', .frame calls) ∧ Session.sameBooks h h' ∧
        onlyChanges [.newFrame] h.block h'.block ∧ h'.block.newFrame = false
    | .ackFrame => ∃ h', hostAct .ackFrame h = .next (h', .done) ∧ Session.sameBooks h h' ∧
        onlyChanges [.newFrame] h.block h'.block ∧ h'.block.newFrame = false
    | .hasNewFrame => hostAct .hasNewFrame h = .next (h, .newFrame h.block.newFrame)
    | .readPixel x y => hostAct (.readPixel x y) h = .next (h, .pixel (h.block.fb.read x y))
    | .readFault => hostAct .readFault h = .next (h, .faultLatch h.block.fault)

/-- 40_display.md R75: RenderFrame clears, draws exactly the lit pixels in row-major order, presents, and then
acknowledges. Rests on the spec's D32. -/
def Obligations.RenderFrameScansRowMajor : Prop :=
  ∀ h : Session, ∃ (h' : Session) (ps : List (Nat × Nat)),
    hostAct .renderFrame h = .next
      (h', .frame ([.clear] ++ ps.map (fun p => .drawPixel p.1 p.2) ++ [.present])) ∧
    (∀ x y, (x, y) ∈ ps ↔ x < 64 ∧ y < 32 ∧ h.block.fb.getLsbD (x + 64 * y) = true) ∧
    ps.Pairwise (fun p q => p.1 + 64 * p.2 < q.1 + 64 * q.2) ∧ h'.block.newFrame = false
end

