-- ==== Sys2Proof/Laws/Framebuffer.lean ====
section
/-! SUPPORT. What the controller's operations do to each pixel. -/

namespace Sys2Proof.Machine

theorem inScreen_iff {x y : Nat} : inScreen x y = true ↔ x < 64 ∧ y < 32 := by
  simp [inScreen, Config.fbWidth, Config.fbHeight]

theorem pixelIndex_lt {x y : Nat} (h : inScreen x y = true) : pixelIndex x y < 2048 := by
  rw [inScreen_iff] at h
  simp only [pixelIndex, Config.fbWidth]; omega

theorem pixelIndex_inj {x y x' y' : Nat} (h : inScreen x y = true) (h' : inScreen x' y' = true) :
    pixelIndex x y = pixelIndex x' y' ↔ x = x' ∧ y = y' := by
  rw [inScreen_iff] at h h'
  simp only [pixelIndex, Config.fbWidth]; omega

theorem Framebuffer.read_inside {fb : Framebuffer} {x y : Nat} (h : inScreen x y = true) :
    fb.read x y = fb.getLsbD (pixelIndex x y) := by
  simp [Framebuffer.read, h]

theorem Framebuffer.read_outside {fb : Framebuffer} {x y : Nat} (h : ¬ inScreen x y = true) :
    fb.read x y = false := by
  simp [Framebuffer.read, h]

theorem Framebuffer.invert_outside {fb : Framebuffer} {x y : Nat} (h : ¬ inScreen x y = true) :
    fb.invert x y = fb := by
  simp [Framebuffer.invert, h]

/-- An invert flips its own pixel when that is on screen, and no other. -/
theorem Framebuffer.read_invert (fb : Framebuffer) (x y x' y' : Nat) :
    (fb.invert x y).read x' y' =
      ((inScreen x y && decide (x' = x ∧ y' = y)) ^^ fb.read x' y') := by
  by_cases h : inScreen x y = true
  · by_cases h' : inScreen x' y' = true
    · have hinj : pixelIndex x y = pixelIndex x' y' ↔ x' = x ∧ y' = y := by
        rw [pixelIndex_inj h h']; exact ⟨fun e => ⟨e.1.symm, e.2.symm⟩, fun e => ⟨e.1.symm, e.2.symm⟩⟩
      rw [Framebuffer.read_inside h', Framebuffer.read_inside h']
      simp only [Framebuffer.invert, h, if_true, BitVec.getLsbD_xor, BitVec.getLsbD_twoPow, hinj, Bool.true_and]
      simp [Bool.xor_comm, pixelIndex_lt h]
    · have hne : ¬ (x' = x ∧ y' = y) := by rintro ⟨rfl, rfl⟩; exact h' h
      simp [Framebuffer.read_outside h', hne]
  · simp [Framebuffer.invert_outside h, h]

theorem Framebuffer.invert_invert (fb : Framebuffer) (x y : Nat) :
    (fb.invert x y).invert x y = fb := by
  unfold Framebuffer.invert
  split
  · rw [BitVec.xor_assoc, BitVec.xor_self, BitVec.xor_zero]
  · rfl

@[simp] theorem Framebuffer.read_clear (x y : Nat) : Framebuffer.clear.read x y = false := by
  simp [Framebuffer.read, Framebuffer.clear]

/-- Framebuffers with equal pixels are equal. -/
theorem Framebuffer.ext_of_read {fb fb' : Framebuffer} (h : ∀ x y, fb.read x y = fb'.read x y) :
    fb = fb' := by
  apply BitVec.eq_of_getLsbD_eq
  intro j hj
  have hs : inScreen (j % 64) (j / 64) = true := by rw [inScreen_iff]; omega
  have hp : pixelIndex (j % 64) (j / 64) = j := by
    simp only [pixelIndex, Config.fbWidth]; omega
  simpa [Framebuffer.read, hs, hp] using h (j % 64) (j / 64)

end Sys2Proof.Machine
end

