-- ==== Sys2Proof/Laws/Display.lean ====
section
/-! SUPPORT. What drawing a sprite does to each pixel, and when it collides. -/

namespace Sys2Proof.Machine

/-- Whether a sprite row at column px0 has a 1 bit at column px. -/
def rowCovers (row : Byte) (px0 px : Nat) : Bool :=
  decide (px0 ≤ px ∧ px < px0 + 8) && spriteBit row (px - px0)

/-- The columns drawn so far: those below px0 + k. -/
theorem drawColumns_prefix (d : Drawing) (px0 py : Nat) (row : Byte) (k : Nat) :
    (∀ x y, ((List.range k).foldl (drawColumn px0 py row) d).1.read x y =
      ((inScreen x y && decide (y = py ∧ px0 ≤ x ∧ x < px0 + k) && spriteBit row (x - px0)) ^^
        d.1.read x y)) ∧
    (((List.range k).foldl (drawColumn px0 py row) d).2 = true ↔ d.2 = true ∨
      ∃ c, c < k ∧ spriteBit row c = true ∧ d.1.read (px0 + c) py = true) := by
  induction k with
  | zero =>
    refine ⟨fun x y => ?_, by simp⟩
    rw [decide_eq_false (by omega : ¬ (y = py ∧ px0 ≤ x ∧ x < px0 + 0))]
    simp
  | succ k ih =>
    rw [List.range_succ, List.foldl_append, List.foldl_cons, List.foldl_nil]
    generalize (List.range k).foldl (drawColumn px0 py row) d = e at ih
    obtain ⟨ihr, ihc⟩ := ih
    have hold : ∀ x y, x ≠ px0 + k ∨ y ≠ py →
        decide (y = py ∧ px0 ≤ x ∧ x < px0 + (k + 1)) = decide (y = py ∧ px0 ≤ x ∧ x < px0 + k) :=
      fun x y h => decide_eq_decide.2 (by omega)
    have hnew : e.1.read (px0 + k) py = d.1.read (px0 + k) py := by
      rw [ihr, decide_eq_false (by omega : ¬ (py = py ∧ px0 ≤ px0 + k ∧ px0 + k < px0 + k))]
      simp
    unfold drawColumn
    by_cases hb : spriteBit row k = true
    · rw [if_pos hb]
      refine ⟨fun x y => ?_, ?_⟩
      · rw [drawPixel, Framebuffer.read_invert]
        by_cases hxy : x = px0 + k ∧ y = py
        · obtain ⟨rfl, rfl⟩ := hxy
          rw [hnew]
          simp [hb]
        · rw [hold x y (by omega), ihr, decide_eq_false hxy]
          simp
      · rw [drawPixel, Bool.or_eq_true, ihc, hnew]
        constructor
        · rintro ((h | ⟨c, hc, h⟩) | h)
          · exact .inl h
          · exact .inr ⟨c, by omega, h⟩
          · exact .inr ⟨k, by omega, hb, h⟩
        · rintro (h | ⟨c, hc, h⟩)
          · exact .inl (.inl h)
          · rcases Nat.lt_succ_iff_lt_or_eq.1 hc with hlt | rfl
            · exact .inl (.inr ⟨c, hlt, h⟩)
            · exact .inr h.2
    · rw [if_neg hb]
      refine ⟨fun x y => ?_, ?_⟩
      · rw [ihr]
        by_cases hx : x = px0 + k
        · subst hx; simp [hb]
        · rw [hold x y (.inl hx)]
      · rw [ihc]
        constructor
        · rintro (h | ⟨c, hc, h⟩)
          · exact .inl h
          · exact .inr ⟨c, by omega, h⟩
        · rintro (h | ⟨c, hc, h⟩)
          · exact .inl h
          · rcases Nat.lt_succ_iff_lt_or_eq.1 hc with hlt | rfl
            · exact .inr ⟨c, hlt, h⟩
            · exact absurd h.1 hb

/-- One sprite row XORs its 1 bits into the screen. -/
theorem drawRow_read (d : Drawing) (px0 py : Nat) (row : Byte) (x y : Nat) :
    (drawRow d px0 py row).1.read x y =
      ((inScreen x y && decide (y = py) && rowCovers row px0 x) ^^ d.1.read x y) := by
  rw [drawRow, (drawColumns_prefix d px0 py row 8).1 x y]
  by_cases hy : y = py <;> simp [rowCovers, hy, Bool.and_assoc]

theorem drawRow_collided (d : Drawing) (px0 py : Nat) (row : Byte) :
    (drawRow d px0 py row).2 = true ↔ d.2 = true ∨
      ∃ c, c < 8 ∧ spriteBit row c = true ∧ d.1.read (px0 + c) py = true :=
  (drawColumns_prefix d px0 py row 8).2

/-- A whole sprite XORs its 1 bits into the screen: the pixel (x, y) is covered by row y − py. -/
theorem drawRows_read (d : Drawing) (px0 py : Nat) (rows : List Byte) (x y : Nat) :
    (drawRows d px0 py rows).1.read x y =
      ((inScreen x y && decide (py ≤ y ∧ y < py + rows.length) &&
        rowCovers (rows.getD (y - py) 0) px0 x) ^^ d.1.read x y) := by
  induction rows generalizing d py with
  | nil =>
    rw [drawRows, decide_eq_false (by simp only [List.length_nil]; omega)]
    simp
  | cons row rows ih =>
    rw [drawRows, ih, drawRow_read, List.length_cons]
    by_cases hy : y = py
    · subst hy
      rw [decide_eq_false (by omega), decide_eq_true (by omega : y ≤ y ∧ y < y + (rows.length + 1))]
      simp
    · rw [decide_eq_false hy, decide_eq_decide.2
        (by omega : (py + 1 ≤ y ∧ y < py + 1 + rows.length) ↔ (py ≤ y ∧ y < py + (rows.length + 1)))]
      by_cases h4 : py ≤ y
      · have e : y - py = (y - (py + 1)) + 1 := by omega
        simp [e]
      · rw [decide_eq_false (by omega : ¬ (py ≤ y ∧ y < py + (rows.length + 1)))]
        simp

/-- A sprite collides when one of its 1 bits lands on a lit pixel of the screen it found. -/
theorem drawRows_collided (d : Drawing) (px0 py : Nat) (rows : List Byte) :
    (drawRows d px0 py rows).2 = true ↔ d.2 = true ∨
      ∃ r c, r < rows.length ∧ c < 8 ∧ spriteBit (rows.getD r 0) c = true ∧
        d.1.read (px0 + c) (py + r) = true := by
  induction rows generalizing d py with
  | nil => simp [drawRows]
  | cons row rows ih =>
    rw [drawRows, ih, drawRow_collided]
    have hr : ∀ c r, (drawRow d px0 py row).1.read (px0 + c) (py + 1 + r) =
        d.1.read (px0 + c) (py + (r + 1)) := by
      intro c r
      have hne : ¬ (py + 1 + r = py) := by omega
      rw [drawRow_read, show py + (r + 1) = py + 1 + r by omega]
      simp [hne]
    constructor
    · rintro ((h | ⟨c, hc, hb, h⟩) | ⟨r, c, hrl, hc, hb, h⟩)
      · exact .inl h
      · exact .inr ⟨0, c, by simp, hc, by simpa using hb, by simpa using h⟩
      · exact .inr ⟨r + 1, c, by simpa using hrl, hc, by simpa using hb, by rw [← hr]; exact h⟩
    · rintro (h | ⟨r, c, hrl, hc, hb, h⟩)
      · exact .inl (.inl h)
      · cases r with
        | zero => exact .inl (.inr ⟨c, hc, by simpa using hb, by simpa using h⟩)
        | succ r =>
          exact .inr ⟨r, c, by simpa using hrl, hc, by simpa using hb, by rw [hr]; exact h⟩

end Sys2Proof.Machine
end

