-- ==== Sys2Proof/Laws/Encoding.lean ====
section
/-! SUPPORT. The fields of a word laid out by each format, and the word of its fields. -/

namespace Sys2Proof

theorem regBits_toNat (r : Reg) : (regBits r).toNat = r.val := rfl

theorem append_toNat {n m : Nat} (a : BitVec n) (b : BitVec m) :
    (a ++ b).toNat = a.toNat * 2 ^ m + b.toNat := by
  rw [BitVec.toNat_append, Nat.shiftLeft_eq, Nat.mul_comm, ← Nat.two_pow_add_eq_or_of_lt b.isLt]

/-! The formats as numbers. -/

theorem formatA_toNat (op : BitVec 4) (nnn : Addr12) :
    (formatA op nnn).toNat = op.toNat * 4096 + nnn.toNat := append_toNat op nnn

theorem formatXK_toNat (op : BitVec 4) (x : Reg) (kk : Byte) :
    (formatXK op x kk).toNat = op.toNat * 4096 + x.val * 256 + kk.toNat := by
  unfold formatXK
  rw [append_toNat, append_toNat, regBits_toNat]
  omega

theorem formatXYN_toNat (op : BitVec 4) (x y : Reg) (n : BitVec 4) :
    (formatXYN op x y n).toNat = op.toNat * 4096 + x.val * 256 + y.val * 16 + n.toNat := by
  unfold formatXYN
  rw [append_toNat, append_toNat, append_toNat, regBits_toNat, regBits_toNat]
  omega

/-! The fields as numbers. -/

theorem opField_toNat (w : Word) : (opField w).toNat = w.toNat / 4096 := by
  have hw := w.isLt
  simp only [opField, BitVec.extractLsb'_toNat, Nat.shiftRight_eq_div_pow]
  omega

theorem xField_val (w : Word) : (xField w).val = w.toNat / 256 % 16 := by
  simp only [xField, BitVec.extractLsb'_toNat, Nat.shiftRight_eq_div_pow]

theorem yField_val (w : Word) : (yField w).val = w.toNat / 16 % 16 := by
  simp only [yField, BitVec.extractLsb'_toNat, Nat.shiftRight_eq_div_pow]

theorem nField_eq (w : Word) : nField w = w.toNat % 16 := by
  simp only [nField, BitVec.extractLsb'_toNat, Nat.shiftRight_eq_div_pow]
  omega

theorem kkField_toNat (w : Word) : (kkField w).toNat = w.toNat % 256 := by
  simp only [kkField, BitVec.extractLsb'_toNat, Nat.shiftRight_eq_div_pow]
  omega

theorem nnnField_toNat (w : Word) : (nnnField w).toNat = w.toNat % 4096 := by
  simp only [nnnField, BitVec.extractLsb'_toNat, Nat.shiftRight_eq_div_pow]
  omega

theorem nField_lt (w : Word) : nField w < 16 := by rw [nField_eq]; omega

/-! The fields of a format, and back. -/

@[simp] theorem opField_formatA (op : BitVec 4) (nnn : Addr12) : opField (formatA op nnn) = op := by
  apply BitVec.eq_of_toNat_eq
  have := nnn.isLt
  rw [opField_toNat, formatA_toNat]; omega

@[simp] theorem nnnField_formatA (op : BitVec 4) (nnn : Addr12) :
    nnnField (formatA op nnn) = nnn := by
  apply BitVec.eq_of_toNat_eq
  have := nnn.isLt
  rw [nnnField_toNat, formatA_toNat]; omega

@[simp] theorem opField_formatXK (op : BitVec 4) (x : Reg) (kk : Byte) :
    opField (formatXK op x kk) = op := by
  apply BitVec.eq_of_toNat_eq
  have := kk.isLt
  have := x.isLt
  rw [opField_toNat, formatXK_toNat]; omega

@[simp] theorem xField_formatXK (op : BitVec 4) (x : Reg) (kk : Byte) :
    xField (formatXK op x kk) = x := by
  apply Fin.ext
  have := kk.isLt
  have := x.isLt
  rw [xField_val, formatXK_toNat]; omega

@[simp] theorem kkField_formatXK (op : BitVec 4) (x : Reg) (kk : Byte) :
    kkField (formatXK op x kk) = kk := by
  apply BitVec.eq_of_toNat_eq
  have := kk.isLt
  rw [kkField_toNat, formatXK_toNat]; omega

@[simp] theorem opField_formatXYN (op : BitVec 4) (x y : Reg) (n : BitVec 4) :
    opField (formatXYN op x y n) = op := by
  apply BitVec.eq_of_toNat_eq
  have := x.isLt
  have := y.isLt
  have := n.isLt
  rw [opField_toNat, formatXYN_toNat]; omega

@[simp] theorem xField_formatXYN (op : BitVec 4) (x y : Reg) (n : BitVec 4) :
    xField (formatXYN op x y n) = x := by
  apply Fin.ext
  have := x.isLt
  have := y.isLt
  have := n.isLt
  rw [xField_val, formatXYN_toNat]; omega

@[simp] theorem yField_formatXYN (op : BitVec 4) (x y : Reg) (n : BitVec 4) :
    yField (formatXYN op x y n) = y := by
  apply Fin.ext
  have := y.isLt
  have := n.isLt
  rw [yField_val, formatXYN_toNat]; omega

@[simp] theorem nField_formatXYN (op : BitVec 4) (x y : Reg) (n : BitVec 4) :
    nField (formatXYN op x y n) = n.toNat := by
  have := n.isLt
  rw [nField_eq, formatXYN_toNat]; omega

theorem formatA_fields (w : Word) : formatA (opField w) (nnnField w) = w := by
  apply BitVec.eq_of_toNat_eq
  rw [formatA_toNat, opField_toNat, nnnField_toNat]; omega

theorem formatXK_fields (w : Word) : formatXK (opField w) (xField w) (kkField w) = w := by
  apply BitVec.eq_of_toNat_eq
  rw [formatXK_toNat, opField_toNat, xField_val, kkField_toNat]; omega

theorem formatXYN_fields (w : Word) :
    formatXYN (opField w) (xField w) (yField w) (BitVec.ofNat 4 (nField w)) = w := by
  apply BitVec.eq_of_toNat_eq
  have := nField_lt w
  rw [formatXYN_toNat, opField_toNat, xField_val, yField_val, BitVec.toNat_ofNat, nField_eq]
  omega

/-- A word is its two bytes. -/
theorem wordOfBytes_bytes (w : Word) : wordOfBytes w.hiByte w.loByte = w := by
  apply BitVec.eq_of_toNat_eq
  have := w.isLt
  simp only [wordOfBytes, Word.hiByte, Word.loByte, append_toNat, BitVec.extractLsb'_toNat,
    Nat.shiftRight_eq_div_pow]
  omega

end Sys2Proof
end

