-- ==== Sys2Proof/Laws/Memory.lean ====
section
/-! SUPPORT. What the memory operations do: the read-over-write laws, that every write keeps the canonical
form, and that equal contents are equal data. -/

namespace Sys2Proof.Machine

@[simp] theorem Memory.read_nil (a : Nat) : Memory.read [] a = resetByte a := rfl

theorem Memory.read_cell_append (m : Memory) (a : Nat) (b : Byte) (c : Nat) (h : c ≠ a) :
    Memory.read (Memory.cell a b ++ m) c = m.read c := by
  unfold Memory.cell
  split <;> simp [Memory.read, h]

/-- A write leaves every other address alone, whatever the list. -/
theorem Memory.read_write_other (m : Memory) (a : Nat) (b : Byte) (c : Nat) (h : c ≠ a) :
    (m.write a b).read c = m.read c := by
  induction m with
  | nil => simpa [Memory.write] using Memory.read_cell_append [] a b c h
  | cons p rest ih =>
    obtain ⟨a', b'⟩ := p
    unfold Memory.write
    split
    · exact Memory.read_cell_append _ a b c h
    · split
      · next _ heq => subst heq; rw [Memory.read_cell_append _ _ _ _ h]; simp [Memory.read, h]
      · simp [Memory.read, ih]

/-- An address below a canonical list reads as its reset byte. -/
theorem Memory.read_below {lo : Nat} {m : Memory} (hm : Memory.wfFrom lo m = true) {a : Nat}
    (h : a < lo) : m.read a = resetByte a := by
  induction m generalizing lo with
  | nil => rfl
  | cons p rest ih =>
    obtain ⟨a', b'⟩ := p
    simp only [Memory.wfFrom, Bool.and_eq_true, decide_eq_true_eq] at hm
    have hne : a ≠ a' := by omega
    simpa [Memory.read, hne] using ih hm.2 (by omega)

theorem Memory.read_cell_append_same {m : Memory} {a : Nat} (hm : Memory.wfFrom (a + 1) m = true)
    (b : Byte) : Memory.read (Memory.cell a b ++ m) a = b := by
  unfold Memory.cell
  split
  · next h => simpa [h] using Memory.read_below hm (Nat.lt_succ_self a)
  · simp [Memory.read]

theorem Memory.wfFrom_mono {lo lo' : Nat} {m : Memory} (h : lo ≤ lo')
    (hm : Memory.wfFrom lo' m = true) : Memory.wfFrom lo m = true := by
  cases m with
  | nil => rfl
  | cons p rest =>
    simp only [Memory.wfFrom, Bool.and_eq_true, decide_eq_true_eq] at hm ⊢
    exact ⟨⟨⟨by omega, hm.1.1.2⟩, hm.1.2⟩, hm.2⟩

/-- The byte written is the byte read. -/
theorem Memory.read_write_same {lo : Nat} {m : Memory} (hm : Memory.wfFrom lo m = true) (a : Nat)
    (b : Byte) : (m.write a b).read a = b := by
  induction m generalizing lo with
  | nil => simpa [Memory.write] using Memory.read_cell_append_same (m := []) (a := a) rfl b
  | cons p rest ih =>
    obtain ⟨a', b'⟩ := p
    have hm' := hm
    simp only [Memory.wfFrom, Bool.and_eq_true, decide_eq_true_eq] at hm
    unfold Memory.write
    split
    · next hlt =>
      refine Memory.read_cell_append_same ?_ b
      simp only [Memory.wfFrom, Bool.and_eq_true, decide_eq_true_eq]
      exact ⟨⟨⟨by omega, hm.1.1.2⟩, hm.1.2⟩, hm.2⟩
    · split
      · next _ heq => subst heq; exact Memory.read_cell_append_same hm.2 b
      · next _ hne => simpa [Memory.read, hne] using ih hm.2

theorem Memory.wfFrom_cell_append {lo a : Nat} {m : Memory} (b : Byte) (hlo : lo ≤ a)
    (ha : a < Config.memSize) (hm : Memory.wfFrom (a + 1) m = true) :
    Memory.wfFrom lo (Memory.cell a b ++ m) = true := by
  unfold Memory.cell
  split
  · exact Memory.wfFrom_mono (by omega) hm
  · next h => simp [Memory.wfFrom, hlo, ha, h, hm]

/-- A write inside the region keeps the canonical form. -/
theorem Memory.write_wfFrom {lo : Nat} {m : Memory} (hm : Memory.wfFrom lo m = true) {a : Nat}
    (hlo : lo ≤ a) (ha : a < Config.memSize) (b : Byte) : Memory.wfFrom lo (m.write a b) = true := by
  induction m generalizing lo with
  | nil => simpa [Memory.write] using Memory.wfFrom_cell_append (m := []) b hlo ha rfl
  | cons p rest ih =>
    obtain ⟨a', b'⟩ := p
    simp only [Memory.wfFrom, Bool.and_eq_true, decide_eq_true_eq] at hm
    unfold Memory.write
    split
    · refine Memory.wfFrom_cell_append b hlo ha ?_
      simp only [Memory.wfFrom, Bool.and_eq_true, decide_eq_true_eq]
      exact ⟨⟨⟨by omega, hm.1.1.2⟩, hm.1.2⟩, hm.2⟩
    · split
      · next _ heq => subst heq; exact Memory.wfFrom_cell_append b hlo ha hm.2
      · simp only [Memory.wfFrom, Bool.and_eq_true, decide_eq_true_eq]
        exact ⟨hm.1, ih hm.2 (by omega)⟩

/-! Consecutive writes. -/

/-- What a run of byte writes leaves: the bytes it was given, in their places, and every other byte. -/
theorem Memory.read_writeBytes_other (m : Memory) (a : Nat) (bs : List Byte) (c : Nat)
    (h : c < a ∨ a + bs.length ≤ c) : (m.writeBytes a bs).read c = m.read c := by
  induction bs generalizing m a with
  | nil => rfl
  | cons b bs ih =>
    simp only [List.length_cons] at h
    rw [Memory.writeBytes, ih _ _ (by omega), Memory.read_write_other _ _ _ _ (by omega)]

theorem Memory.writeBytes_wfFrom {lo : Nat} {m : Memory} (hm : Memory.wfFrom lo m = true) {a : Nat}
    {bs : List Byte} (hlo : lo ≤ a) (ha : a + bs.length ≤ Config.memSize) :
    Memory.wfFrom lo (m.writeBytes a bs) = true := by
  induction bs generalizing m a with
  | nil => exact hm
  | cons b bs ih =>
    simp only [List.length_cons] at ha
    exact ih (Memory.write_wfFrom hm hlo (by omega) b) (by omega) (by omega)

theorem Memory.read_writeBytes_at {lo : Nat} {m : Memory} (hm : Memory.wfFrom lo m = true) {a : Nat}
    {bs : List Byte} (hlo : lo ≤ a) (ha : a + bs.length ≤ Config.memSize) (k : Nat)
    (hk : k < bs.length) : (m.writeBytes a bs).read (a + k) = bs[k] := by
  induction bs generalizing m a k with
  | nil => simp at hk
  | cons b bs ih =>
    simp only [List.length_cons] at ha hk
    have hw := Memory.write_wfFrom hm hlo (by omega : a < Config.memSize) b
    cases k with
    | zero =>
      rw [Memory.writeBytes, Memory.read_writeBytes_other _ _ _ _ (by omega)]
      simpa using Memory.read_write_same hm a b
    | succ k =>
      have hk' := ih hw (a := a + 1) (by omega) (by omega) k (by omega)
      simpa [Memory.writeBytes, Nat.add_assoc, Nat.add_comm 1 k] using hk'

/-! Equal contents are equal data. -/

theorem Memory.read_head_ne {lo a : Nat} {b : Byte} {m : Memory}
    (hm : Memory.wfFrom lo ((a, b) :: m) = true) : Memory.read ((a, b) :: m) a ≠ resetByte a := by
  simp only [Memory.wfFrom, Bool.and_eq_true, decide_eq_true_eq] at hm
  simpa [Memory.read] using hm.1.2

theorem Memory.ext_of_read {lo lo' : Nat} {m m' : Memory} (hm : Memory.wfFrom lo m = true)
    (hm' : Memory.wfFrom lo' m' = true) (h : ∀ a, m.read a = m'.read a) : m = m' := by
  induction m generalizing lo lo' m' with
  | nil =>
    cases m' with
    | nil => rfl
    | cons p rest => exact absurd (h p.1).symm (Memory.read_head_ne hm')
  | cons p rest ih =>
    cases m' with
    | nil => exact absurd (h p.1) (Memory.read_head_ne hm)
    | cons p' rest' =>
      obtain ⟨a, b⟩ := p
      obtain ⟨a', b'⟩ := p'
      have hne := Memory.read_head_ne hm
      have hne' := Memory.read_head_ne hm'
      simp only [Memory.wfFrom, Bool.and_eq_true, decide_eq_true_eq] at hm hm'
      have haa : a = a' := by
        rcases Nat.lt_trichotomy a a' with hlt | heq | hlt
        · refine absurd ?_ hne
          rw [h a]
          simpa [Memory.read, Nat.ne_of_lt hlt] using Memory.read_below hm'.2 (by omega)
        · exact heq
        · refine absurd ?_ hne'
          rw [← h a']
          simpa [Memory.read, Nat.ne_of_lt hlt] using Memory.read_below hm.2 (by omega)
      subst haa
      have hb : b = b' := by simpa [Memory.read] using h a
      subst hb
      have hrest : ∀ c, Memory.read rest c = Memory.read rest' c := by
        intro c
        by_cases hc : c = a
        · subst hc
          rw [Memory.read_below hm.2 (by omega), Memory.read_below hm'.2 (by omega)]
        · simpa [Memory.read, hc] using h c
      rw [ih hm.2 hm'.2 hrest]

end Sys2Proof.Machine
end

