-- ==== Sys2Proof/Laws/State.lean ====
section
/-! SUPPORT. One lemma per field per update of State, true by unfolding the update once, so that no later
proof unfolds a record update. -/

namespace Sys2Proof.Machine

variable (s : State)

/-! writeReg -/

@[simp] theorem writeReg_v (x : Reg) (b : Byte) : (s.writeReg x b).v = s.v.set x b := rfl
@[simp] theorem writeReg_i (x : Reg) (b : Byte) : (s.writeReg x b).i = s.i := rfl
@[simp] theorem writeReg_pc (x : Reg) (b : Byte) : (s.writeReg x b).pc = s.pc := rfl
@[simp] theorem writeReg_sp (x : Reg) (b : Byte) : (s.writeReg x b).sp = s.sp := rfl
@[simp] theorem writeReg_stack (x : Reg) (b : Byte) : (s.writeReg x b).stack = s.stack := rfl
@[simp] theorem writeReg_dt (x : Reg) (b : Byte) : (s.writeReg x b).dt = s.dt := rfl
@[simp] theorem writeReg_st (x : Reg) (b : Byte) : (s.writeReg x b).st = s.st := rfl
@[simp] theorem writeReg_mem (x : Reg) (b : Byte) : (s.writeReg x b).mem = s.mem := rfl
@[simp] theorem writeReg_fb (x : Reg) (b : Byte) : (s.writeReg x b).fb = s.fb := rfl
@[simp] theorem writeReg_key (x : Reg) (b : Byte) : (s.writeReg x b).key = s.key := rfl
@[simp] theorem writeReg_newFrame (x : Reg) (b : Byte) : (s.writeReg x b).newFrame = s.newFrame := rfl
@[simp] theorem writeReg_run (x : Reg) (b : Byte) : (s.writeReg x b).run = s.run := rfl
@[simp] theorem writeReg_cycles (x : Reg) (b : Byte) : (s.writeReg x b).cycles = s.cycles := rfl
@[simp] theorem writeReg_fault (x : Reg) (b : Byte) : (s.writeReg x b).fault = s.fault := rfl
@[simp] theorem writeReg_beeps (x : Reg) (b : Byte) : (s.writeReg x b).beeps = s.beeps := rfl
@[simp] theorem writeReg_draws (x : Reg) (b : Byte) : (s.writeReg x b).draws = s.draws := rfl

/-! setI -/

@[simp] theorem setI_v (w : Word) : (s.setI w).v = s.v := rfl
@[simp] theorem setI_i (w : Word) : (s.setI w).i = w := rfl
@[simp] theorem setI_pc (w : Word) : (s.setI w).pc = s.pc := rfl
@[simp] theorem setI_sp (w : Word) : (s.setI w).sp = s.sp := rfl
@[simp] theorem setI_stack (w : Word) : (s.setI w).stack = s.stack := rfl
@[simp] theorem setI_dt (w : Word) : (s.setI w).dt = s.dt := rfl
@[simp] theorem setI_st (w : Word) : (s.setI w).st = s.st := rfl
@[simp] theorem setI_mem (w : Word) : (s.setI w).mem = s.mem := rfl
@[simp] theorem setI_fb (w : Word) : (s.setI w).fb = s.fb := rfl
@[simp] theorem setI_key (w : Word) : (s.setI w).key = s.key := rfl
@[simp] theorem setI_newFrame (w : Word) : (s.setI w).newFrame = s.newFrame := rfl
@[simp] theorem setI_run (w : Word) : (s.setI w).run = s.run := rfl
@[simp] theorem setI_cycles (w : Word) : (s.setI w).cycles = s.cycles := rfl
@[simp] theorem setI_fault (w : Word) : (s.setI w).fault = s.fault := rfl
@[simp] theorem setI_beeps (w : Word) : (s.setI w).beeps = s.beeps := rfl
@[simp] theorem setI_draws (w : Word) : (s.setI w).draws = s.draws := rfl

/-! setPc -/

@[simp] theorem setPc_v (w : Word) : (s.setPc w).v = s.v := rfl
@[simp] theorem setPc_i (w : Word) : (s.setPc w).i = s.i := rfl
@[simp] theorem setPc_pc (w : Word) : (s.setPc w).pc = w := rfl
@[simp] theorem setPc_sp (w : Word) : (s.setPc w).sp = s.sp := rfl
@[simp] theorem setPc_stack (w : Word) : (s.setPc w).stack = s.stack := rfl
@[simp] theorem setPc_dt (w : Word) : (s.setPc w).dt = s.dt := rfl
@[simp] theorem setPc_st (w : Word) : (s.setPc w).st = s.st := rfl
@[simp] theorem setPc_mem (w : Word) : (s.setPc w).mem = s.mem := rfl
@[simp] theorem setPc_fb (w : Word) : (s.setPc w).fb = s.fb := rfl
@[simp] theorem setPc_key (w : Word) : (s.setPc w).key = s.key := rfl
@[simp] theorem setPc_newFrame (w : Word) : (s.setPc w).newFrame = s.newFrame := rfl
@[simp] theorem setPc_run (w : Word) : (s.setPc w).run = s.run := rfl
@[simp] theorem setPc_cycles (w : Word) : (s.setPc w).cycles = s.cycles := rfl
@[simp] theorem setPc_fault (w : Word) : (s.setPc w).fault = s.fault := rfl
@[simp] theorem setPc_beeps (w : Word) : (s.setPc w).beeps = s.beeps := rfl
@[simp] theorem setPc_draws (w : Word) : (s.setPc w).draws = s.draws := rfl

/-! nextInstr -/

@[simp] theorem nextInstr_v : (s.nextInstr).v = s.v := rfl
@[simp] theorem nextInstr_i : (s.nextInstr).i = s.i := rfl
@[simp] theorem nextInstr_pc : (s.nextInstr).pc = s.pc + 2 := rfl
@[simp] theorem nextInstr_sp : (s.nextInstr).sp = s.sp := rfl
@[simp] theorem nextInstr_stack : (s.nextInstr).stack = s.stack := rfl
@[simp] theorem nextInstr_dt : (s.nextInstr).dt = s.dt := rfl
@[simp] theorem nextInstr_st : (s.nextInstr).st = s.st := rfl
@[simp] theorem nextInstr_mem : (s.nextInstr).mem = s.mem := rfl
@[simp] theorem nextInstr_fb : (s.nextInstr).fb = s.fb := rfl
@[simp] theorem nextInstr_key : (s.nextInstr).key = s.key := rfl
@[simp] theorem nextInstr_newFrame : (s.nextInstr).newFrame = s.newFrame := rfl
@[simp] theorem nextInstr_run : (s.nextInstr).run = s.run := rfl
@[simp] theorem nextInstr_cycles : (s.nextInstr).cycles = s.cycles := rfl
@[simp] theorem nextInstr_fault : (s.nextInstr).fault = s.fault := rfl
@[simp] theorem nextInstr_beeps : (s.nextInstr).beeps = s.beeps := rfl
@[simp] theorem nextInstr_draws : (s.nextInstr).draws = s.draws := rfl

/-! skipIf -/

@[simp] theorem skipIf_v (c : Bool) : (s.skipIf c).v = s.v := rfl
@[simp] theorem skipIf_i (c : Bool) : (s.skipIf c).i = s.i := rfl
@[simp] theorem skipIf_pc (c : Bool) : (s.skipIf c).pc = if c then s.pc + 4 else s.pc + 2 := rfl
@[simp] theorem skipIf_sp (c : Bool) : (s.skipIf c).sp = s.sp := rfl
@[simp] theorem skipIf_stack (c : Bool) : (s.skipIf c).stack = s.stack := rfl
@[simp] theorem skipIf_dt (c : Bool) : (s.skipIf c).dt = s.dt := rfl
@[simp] theorem skipIf_st (c : Bool) : (s.skipIf c).st = s.st := rfl
@[simp] theorem skipIf_mem (c : Bool) : (s.skipIf c).mem = s.mem := rfl
@[simp] theorem skipIf_fb (c : Bool) : (s.skipIf c).fb = s.fb := rfl
@[simp] theorem skipIf_key (c : Bool) : (s.skipIf c).key = s.key := rfl
@[simp] theorem skipIf_newFrame (c : Bool) : (s.skipIf c).newFrame = s.newFrame := rfl
@[simp] theorem skipIf_run (c : Bool) : (s.skipIf c).run = s.run := rfl
@[simp] theorem skipIf_cycles (c : Bool) : (s.skipIf c).cycles = s.cycles := rfl
@[simp] theorem skipIf_fault (c : Bool) : (s.skipIf c).fault = s.fault := rfl
@[simp] theorem skipIf_beeps (c : Bool) : (s.skipIf c).beeps = s.beeps := rfl
@[simp] theorem skipIf_draws (c : Bool) : (s.skipIf c).draws = s.draws := rfl

/-! setDt -/

@[simp] theorem setDt_v (b : Byte) : (s.setDt b).v = s.v := rfl
@[simp] theorem setDt_i (b : Byte) : (s.setDt b).i = s.i := rfl
@[simp] theorem setDt_pc (b : Byte) : (s.setDt b).pc = s.pc := rfl
@[simp] theorem setDt_sp (b : Byte) : (s.setDt b).sp = s.sp := rfl
@[simp] theorem setDt_stack (b : Byte) : (s.setDt b).stack = s.stack := rfl
@[simp] theorem setDt_dt (b : Byte) : (s.setDt b).dt = b := rfl
@[simp] theorem setDt_st (b : Byte) : (s.setDt b).st = s.st := rfl
@[simp] theorem setDt_mem (b : Byte) : (s.setDt b).mem = s.mem := rfl
@[simp] theorem setDt_fb (b : Byte) : (s.setDt b).fb = s.fb := rfl
@[simp] theorem setDt_key (b : Byte) : (s.setDt b).key = s.key := rfl
@[simp] theorem setDt_newFrame (b : Byte) : (s.setDt b).newFrame = s.newFrame := rfl
@[simp] theorem setDt_run (b : Byte) : (s.setDt b).run = s.run := rfl
@[simp] theorem setDt_cycles (b : Byte) : (s.setDt b).cycles = s.cycles := rfl
@[simp] theorem setDt_fault (b : Byte) : (s.setDt b).fault = s.fault := rfl
@[simp] theorem setDt_beeps (b : Byte) : (s.setDt b).beeps = s.beeps := rfl
@[simp] theorem setDt_draws (b : Byte) : (s.setDt b).draws = s.draws := rfl

/-! setSt -/

@[simp] theorem setSt_v (b : Byte) : (s.setSt b).v = s.v := rfl
@[simp] theorem setSt_i (b : Byte) : (s.setSt b).i = s.i := rfl
@[simp] theorem setSt_pc (b : Byte) : (s.setSt b).pc = s.pc := rfl
@[simp] theorem setSt_sp (b : Byte) : (s.setSt b).sp = s.sp := rfl
@[simp] theorem setSt_stack (b : Byte) : (s.setSt b).stack = s.stack := rfl
@[simp] theorem setSt_dt (b : Byte) : (s.setSt b).dt = s.dt := rfl
@[simp] theorem setSt_st (b : Byte) : (s.setSt b).st = b := rfl
@[simp] theorem setSt_mem (b : Byte) : (s.setSt b).mem = s.mem := rfl
@[simp] theorem setSt_fb (b : Byte) : (s.setSt b).fb = s.fb := rfl
@[simp] theorem setSt_key (b : Byte) : (s.setSt b).key = s.key := rfl
@[simp] theorem setSt_newFrame (b : Byte) : (s.setSt b).newFrame = s.newFrame := rfl
@[simp] theorem setSt_run (b : Byte) : (s.setSt b).run = s.run := rfl
@[simp] theorem setSt_cycles (b : Byte) : (s.setSt b).cycles = s.cycles := rfl
@[simp] theorem setSt_fault (b : Byte) : (s.setSt b).fault = s.fault := rfl
@[simp] theorem setSt_beeps (b : Byte) : (s.setSt b).beeps = s.beeps := rfl
@[simp] theorem setSt_draws (b : Byte) : (s.setSt b).draws = s.draws := rfl

/-! setFrame -/

@[simp] theorem setFrame_v (fb : Framebuffer) : (s.setFrame fb).v = s.v := rfl
@[simp] theorem setFrame_i (fb : Framebuffer) : (s.setFrame fb).i = s.i := rfl
@[simp] theorem setFrame_pc (fb : Framebuffer) : (s.setFrame fb).pc = s.pc := rfl
@[simp] theorem setFrame_sp (fb : Framebuffer) : (s.setFrame fb).sp = s.sp := rfl
@[simp] theorem setFrame_stack (fb : Framebuffer) : (s.setFrame fb).stack = s.stack := rfl
@[simp] theorem setFrame_dt (fb : Framebuffer) : (s.setFrame fb).dt = s.dt := rfl
@[simp] theorem setFrame_st (fb : Framebuffer) : (s.setFrame fb).st = s.st := rfl
@[simp] theorem setFrame_mem (fb : Framebuffer) : (s.setFrame fb).mem = s.mem := rfl
@[simp] theorem setFrame_fb (fb : Framebuffer) : (s.setFrame fb).fb = fb := rfl
@[simp] theorem setFrame_key (fb : Framebuffer) : (s.setFrame fb).key = s.key := rfl
@[simp] theorem setFrame_newFrame (fb : Framebuffer) : (s.setFrame fb).newFrame = true := rfl
@[simp] theorem setFrame_run (fb : Framebuffer) : (s.setFrame fb).run = s.run := rfl
@[simp] theorem setFrame_cycles (fb : Framebuffer) : (s.setFrame fb).cycles = s.cycles := rfl
@[simp] theorem setFrame_fault (fb : Framebuffer) : (s.setFrame fb).fault = s.fault := rfl
@[simp] theorem setFrame_beeps (fb : Framebuffer) : (s.setFrame fb).beeps = s.beeps := rfl
@[simp] theorem setFrame_draws (fb : Framebuffer) : (s.setFrame fb).draws = s.draws := rfl

/-! loadRegs -/

@[simp] theorem loadRegs_v (bs : List Byte) : (s.loadRegs bs).v = loadRegsFrom s.v 0 bs := rfl
@[simp] theorem loadRegs_i (bs : List Byte) : (s.loadRegs bs).i = s.i := rfl
@[simp] theorem loadRegs_pc (bs : List Byte) : (s.loadRegs bs).pc = s.pc := rfl
@[simp] theorem loadRegs_sp (bs : List Byte) : (s.loadRegs bs).sp = s.sp := rfl
@[simp] theorem loadRegs_stack (bs : List Byte) : (s.loadRegs bs).stack = s.stack := rfl
@[simp] theorem loadRegs_dt (bs : List Byte) : (s.loadRegs bs).dt = s.dt := rfl
@[simp] theorem loadRegs_st (bs : List Byte) : (s.loadRegs bs).st = s.st := rfl
@[simp] theorem loadRegs_mem (bs : List Byte) : (s.loadRegs bs).mem = s.mem := rfl
@[simp] theorem loadRegs_fb (bs : List Byte) : (s.loadRegs bs).fb = s.fb := rfl
@[simp] theorem loadRegs_key (bs : List Byte) : (s.loadRegs bs).key = s.key := rfl
@[simp] theorem loadRegs_newFrame (bs : List Byte) : (s.loadRegs bs).newFrame = s.newFrame := rfl
@[simp] theorem loadRegs_run (bs : List Byte) : (s.loadRegs bs).run = s.run := rfl
@[simp] theorem loadRegs_cycles (bs : List Byte) : (s.loadRegs bs).cycles = s.cycles := rfl
@[simp] theorem loadRegs_fault (bs : List Byte) : (s.loadRegs bs).fault = s.fault := rfl
@[simp] theorem loadRegs_beeps (bs : List Byte) : (s.loadRegs bs).beeps = s.beeps := rfl
@[simp] theorem loadRegs_draws (bs : List Byte) : (s.loadRegs bs).draws = s.draws := rfl

/-! storeBytes -/

@[simp] theorem storeBytes_v (a : Nat) (bs : List Byte) : (s.storeBytes a bs).v = s.v := rfl
@[simp] theorem storeBytes_i (a : Nat) (bs : List Byte) : (s.storeBytes a bs).i = s.i := rfl
@[simp] theorem storeBytes_pc (a : Nat) (bs : List Byte) : (s.storeBytes a bs).pc = s.pc := rfl
@[simp] theorem storeBytes_sp (a : Nat) (bs : List Byte) : (s.storeBytes a bs).sp = s.sp := rfl
@[simp] theorem storeBytes_stack (a : Nat) (bs : List Byte) : (s.storeBytes a bs).stack = s.stack := rfl
@[simp] theorem storeBytes_dt (a : Nat) (bs : List Byte) : (s.storeBytes a bs).dt = s.dt := rfl
@[simp] theorem storeBytes_st (a : Nat) (bs : List Byte) : (s.storeBytes a bs).st = s.st := rfl
@[simp] theorem storeBytes_mem (a : Nat) (bs : List Byte) : (s.storeBytes a bs).mem = s.mem.writeBytes a bs := rfl
@[simp] theorem storeBytes_fb (a : Nat) (bs : List Byte) : (s.storeBytes a bs).fb = s.fb := rfl
@[simp] theorem storeBytes_key (a : Nat) (bs : List Byte) : (s.storeBytes a bs).key = s.key := rfl
@[simp] theorem storeBytes_newFrame (a : Nat) (bs : List Byte) : (s.storeBytes a bs).newFrame = s.newFrame := rfl
@[simp] theorem storeBytes_run (a : Nat) (bs : List Byte) : (s.storeBytes a bs).run = s.run := rfl
@[simp] theorem storeBytes_cycles (a : Nat) (bs : List Byte) : (s.storeBytes a bs).cycles = s.cycles := rfl
@[simp] theorem storeBytes_fault (a : Nat) (bs : List Byte) : (s.storeBytes a bs).fault = s.fault := rfl
@[simp] theorem storeBytes_beeps (a : Nat) (bs : List Byte) : (s.storeBytes a bs).beeps = s.beeps := rfl
@[simp] theorem storeBytes_draws (a : Nat) (bs : List Byte) : (s.storeBytes a bs).draws = s.draws := rfl

/-! raiseFault -/

@[simp] theorem raiseFault_v (c : FaultCode) (n : Nat) (w : Option Word) : (s.raiseFault c n w).v = s.v := rfl
@[simp] theorem raiseFault_i (c : FaultCode) (n : Nat) (w : Option Word) : (s.raiseFault c n w).i = s.i := rfl
@[simp] theorem raiseFault_pc (c : FaultCode) (n : Nat) (w : Option Word) : (s.raiseFault c n w).pc = s.pc := rfl
@[simp] theorem raiseFault_sp (c : FaultCode) (n : Nat) (w : Option Word) : (s.raiseFault c n w).sp = s.sp := rfl
@[simp] theorem raiseFault_stack (c : FaultCode) (n : Nat) (w : Option Word) : (s.raiseFault c n w).stack = s.stack := rfl
@[simp] theorem raiseFault_dt (c : FaultCode) (n : Nat) (w : Option Word) : (s.raiseFault c n w).dt = s.dt := rfl
@[simp] theorem raiseFault_st (c : FaultCode) (n : Nat) (w : Option Word) : (s.raiseFault c n w).st = s.st := rfl
@[simp] theorem raiseFault_mem (c : FaultCode) (n : Nat) (w : Option Word) : (s.raiseFault c n w).mem = s.mem := rfl
@[simp] theorem raiseFault_fb (c : FaultCode) (n : Nat) (w : Option Word) : (s.raiseFault c n w).fb = s.fb := rfl
@[simp] theorem raiseFault_key (c : FaultCode) (n : Nat) (w : Option Word) : (s.raiseFault c n w).key = s.key := rfl
@[simp] theorem raiseFault_newFrame (c : FaultCode) (n : Nat) (w : Option Word) : (s.raiseFault c n w).newFrame = s.newFrame := rfl
@[simp] theorem raiseFault_run (c : FaultCode) (n : Nat) (w : Option Word) : (s.raiseFault c n w).run = s.run := rfl
@[simp] theorem raiseFault_cycles (c : FaultCode) (n : Nat) (w : Option Word) : (s.raiseFault c n w).cycles = s.cycles := rfl
@[simp] theorem raiseFault_fault (c : FaultCode) (n : Nat) (w : Option Word) : (s.raiseFault c n w).fault = some { code := c, pc := s.pc, opcode := w, info := n } := rfl
@[simp] theorem raiseFault_beeps (c : FaultCode) (n : Nat) (w : Option Word) : (s.raiseFault c n w).beeps = s.beeps := rfl
@[simp] theorem raiseFault_draws (c : FaultCode) (n : Nat) (w : Option Word) : (s.raiseFault c n w).draws = s.draws := rfl

/-! indexPast -/

@[simp] theorem indexPast_v (x : Reg) : (s.indexPast x).v = s.v := rfl
@[simp] theorem indexPast_i (x : Reg) : (s.indexPast x).i = BitVec.ofNat 16 (s.i.toNat + x.val + 1) := rfl
@[simp] theorem indexPast_pc (x : Reg) : (s.indexPast x).pc = s.pc := rfl
@[simp] theorem indexPast_sp (x : Reg) : (s.indexPast x).sp = s.sp := rfl
@[simp] theorem indexPast_stack (x : Reg) : (s.indexPast x).stack = s.stack := rfl
@[simp] theorem indexPast_dt (x : Reg) : (s.indexPast x).dt = s.dt := rfl
@[simp] theorem indexPast_st (x : Reg) : (s.indexPast x).st = s.st := rfl
@[simp] theorem indexPast_mem (x : Reg) : (s.indexPast x).mem = s.mem := rfl
@[simp] theorem indexPast_fb (x : Reg) : (s.indexPast x).fb = s.fb := rfl
@[simp] theorem indexPast_key (x : Reg) : (s.indexPast x).key = s.key := rfl
@[simp] theorem indexPast_newFrame (x : Reg) : (s.indexPast x).newFrame = s.newFrame := rfl
@[simp] theorem indexPast_run (x : Reg) : (s.indexPast x).run = s.run := rfl
@[simp] theorem indexPast_cycles (x : Reg) : (s.indexPast x).cycles = s.cycles := rfl
@[simp] theorem indexPast_fault (x : Reg) : (s.indexPast x).fault = s.fault := rfl
@[simp] theorem indexPast_beeps (x : Reg) : (s.indexPast x).beeps = s.beeps := rfl
@[simp] theorem indexPast_draws (x : Reg) : (s.indexPast x).draws = s.draws := rfl

/-! timerTick -/

@[simp] theorem timerTick_v : (s.timerTick).v = s.v := rfl
@[simp] theorem timerTick_i : (s.timerTick).i = s.i := rfl
@[simp] theorem timerTick_pc : (s.timerTick).pc = s.pc := rfl
@[simp] theorem timerTick_sp : (s.timerTick).sp = s.sp := rfl
@[simp] theorem timerTick_stack : (s.timerTick).stack = s.stack := rfl
@[simp] theorem timerTick_dt : (s.timerTick).dt = if s.dt = 0 then 0 else s.dt - 1 := rfl
@[simp] theorem timerTick_st : (s.timerTick).st = if s.st = 0 then 0 else s.st - 1 := rfl
@[simp] theorem timerTick_mem : (s.timerTick).mem = s.mem := rfl
@[simp] theorem timerTick_fb : (s.timerTick).fb = s.fb := rfl
@[simp] theorem timerTick_key : (s.timerTick).key = s.key := rfl
@[simp] theorem timerTick_newFrame : (s.timerTick).newFrame = s.newFrame := rfl
@[simp] theorem timerTick_run : (s.timerTick).run = s.run := rfl
@[simp] theorem timerTick_cycles : (s.timerTick).cycles = s.cycles := rfl
@[simp] theorem timerTick_fault : (s.timerTick).fault = s.fault := rfl
@[simp] theorem timerTick_beeps : (s.timerTick).beeps = if s.st = 1 then s.beeps + 1 else s.beeps := rfl
@[simp] theorem timerTick_draws : (s.timerTick).draws = s.draws := rfl

/-! hostReset -/

@[simp] theorem hostReset_v : s.hostReset.v = State.reset.v := rfl
@[simp] theorem hostReset_i : s.hostReset.i = State.reset.i := rfl
@[simp] theorem hostReset_pc : s.hostReset.pc = State.reset.pc := rfl
@[simp] theorem hostReset_sp : s.hostReset.sp = State.reset.sp := rfl
@[simp] theorem hostReset_stack : s.hostReset.stack = State.reset.stack := rfl
@[simp] theorem hostReset_dt : s.hostReset.dt = State.reset.dt := rfl
@[simp] theorem hostReset_st : s.hostReset.st = State.reset.st := rfl
@[simp] theorem hostReset_mem : s.hostReset.mem = State.reset.mem := rfl
@[simp] theorem hostReset_fb : s.hostReset.fb = State.reset.fb := rfl
@[simp] theorem hostReset_key : s.hostReset.key = s.key := rfl
@[simp] theorem hostReset_newFrame : s.hostReset.newFrame = State.reset.newFrame := rfl
@[simp] theorem hostReset_run : s.hostReset.run = State.reset.run := rfl
@[simp] theorem hostReset_cycles : s.hostReset.cycles = State.reset.cycles := rfl
@[simp] theorem hostReset_fault : s.hostReset.fault = State.reset.fault := rfl
@[simp] theorem hostReset_beeps : s.hostReset.beeps = State.reset.beeps := rfl
@[simp] theorem hostReset_draws : s.hostReset.draws = s.draws := rfl

end Sys2Proof.Machine
end

