-- ==== Sys2Proof/Laws/Registers.lean ====
section
/-! SUPPORT. Reads of the register file after each way of writing it. -/

namespace Sys2Proof.Machine

theorem readReg_writeReg (s : State) (x : Reg) (b : Byte) (r : Reg) :
    (s.writeReg x b).readReg r = if r = x then b else s.readReg r := by
  unfold State.readReg
  rw [writeReg_v]
  by_cases h : r = x
  · subst h; simp
  · have hv : (x : Nat) ≠ (r : Nat) := fun e => h (Fin.ext e.symm)
    simp [h, Vector.getElem_set_ne, hv]

@[simp] theorem readReg_writeReg_same (s : State) (x : Reg) (b : Byte) :
    (s.writeReg x b).readReg x = b := by simp [readReg_writeReg]

theorem readReg_writeReg_other (s : State) {x r : Reg} (b : Byte) (h : r ≠ x) :
    (s.writeReg x b).readReg r = s.readReg r := by simp [readReg_writeReg, h]

/-- A register read depends on the register file alone. -/
theorem readReg_congr {s t : State} (h : t.v = s.v) (r : Reg) : t.readReg r = s.readReg r := by
  unfold State.readReg; rw [h]

@[simp] theorem readReg_setI (s : State) (w : Word) (r : Reg) :
    (s.setI w).readReg r = s.readReg r := rfl
@[simp] theorem readReg_setPc (s : State) (w : Word) (r : Reg) :
    (s.setPc w).readReg r = s.readReg r := rfl
@[simp] theorem readReg_nextInstr (s : State) (r : Reg) : s.nextInstr.readReg r = s.readReg r := rfl
@[simp] theorem readReg_skipIf (s : State) (c : Bool) (r : Reg) :
    (s.skipIf c).readReg r = s.readReg r := rfl
@[simp] theorem readReg_setFrame (s : State) (fb : Framebuffer) (r : Reg) :
    (s.setFrame fb).readReg r = s.readReg r := rfl
@[simp] theorem readReg_storeBytes (s : State) (a : Nat) (bs : List Byte) (r : Reg) :
    (s.storeBytes a bs).readReg r = s.readReg r := rfl
@[simp] theorem readReg_indexPast (s : State) (x r : Reg) :
    (s.indexPast x).readReg r = s.readReg r := rfl

/-- The result goes to x and the flag to VF, which keeps the flag when x is VF. -/
theorem readReg_writeWithFlag (s : State) (x : Reg) (result flag : Byte) (r : Reg) :
    (s.writeWithFlag x result flag).readReg r =
      if r = Reg.vf then flag else if r = x then result else s.readReg r := by
  simp only [State.writeWithFlag, readReg_writeReg]

theorem loadRegsFrom_getElem (v : Vector Byte 16) (k : Nat) (bs : List Byte) (j : Nat) (hj : j < 16) :
    (loadRegsFrom v k bs)[j] =
      if h : k ≤ j ∧ j < k + bs.length then bs[j - k] else v[j] := by
  induction bs generalizing v k with
  | nil =>
    rw [loadRegsFrom, dif_neg]
    simp only [List.length_nil]; omega
  | cons b bs ih =>
    rw [loadRegsFrom, ih]
    simp only [List.length_cons]
    by_cases h1 : k + 1 ≤ j ∧ j < k + 1 + bs.length
    · rw [dif_pos h1, dif_pos (by omega)]
      have e : j - k = (j - (k + 1)) + 1 := by omega
      simp [e]
    · rw [dif_neg h1]
      by_cases h2 : j = k
      · subst h2
        rw [dif_pos (by omega)]
        simp
      · rw [dif_neg (by omega)]
        simp [Ne.symm h2]

/-- The registers from V0 take the bytes of the list; the others stay. -/
theorem readReg_loadRegs (s : State) (bs : List Byte) (r : Reg) :
    (s.loadRegs bs).readReg r = if h : r.val < bs.length then bs[r.val] else s.readReg r := by
  have h := loadRegsFrom_getElem s.v 0 bs r.val r.isLt
  simpa [State.readReg, loadRegs_v] using h

theorem regsUpTo_length (s : State) (x : Reg) : (s.regsUpTo x).length = x.val + 1 := by
  simp [State.regsUpTo]

theorem regsUpTo_getElem (s : State) (x : Reg) (k : Reg) (h : k.val < (s.regsUpTo x).length) :
    (s.regsUpTo x)[k.val] = s.readReg k := by
  simp [State.regsUpTo, State.readReg]

end Sys2Proof.Machine
end

