-- ==== Sys2Proof/Laws/Ops.lean ====
section
/-! SUPPORT. One lemma per shared operation that says everything it can do; the provers cite these and do
not unfold the operation. -/

namespace Sys2Proof.Machine

/-! How an instruction ends. -/

@[simp] theorem endInstr_ok (ins : Instr) (s s' : State) : endInstr ins s (.ok s') = .next s' := rfl

@[simp] theorem endInstr_raise (ins : Instr) (s : State) (c : FaultCode) (n : Nat) :
    endInstr ins s (.error (.raise c n)) = .next (s.raiseFault c n (some (encode ins))) := rfl

@[simp] theorem endInstr_stuck (ins : Instr) (s : State) (f : Fault) :
    endInstr ins s (.error (.stuck f)) = .fault f := rfl

/-- An instruction's pseudocode never ends in a refusal. -/
theorem endInstr_not_refused (ins : Instr) (s : State) (r : Except Trap State) (x : Refusal) :
    endInstr ins s r ≠ .refused x := by
  cases r with
  | ok a => intro h; cases h
  | error t => cases t <;> (intro h; cases h)

@[simp] theorem map_ok {α β : Type} (f : α → β) (a : α) :
    Except.map f (.ok a : Except Trap α) = .ok (f a) := rfl

@[simp] theorem map_error {α β : Type} (f : α → β) (t : Trap) :
    Except.map f (.error t : Except Trap α) = .error t := rfl

/-! Stack. -/

theorem push_ok {s : State} {w : Word} (h : s.sp.toNat < 16) :
    s.push w = .ok { s with stack := s.stack.set s.sp.toNat w, sp := s.sp + 1 } := by
  simp [State.push, h]

theorem push_overflow {s : State} {w : Word} (h : 16 ≤ s.sp.toNat) :
    s.push w = .error (.raise .stackOverflow s.pc.toNat) := by
  simp [State.push, Nat.not_lt.2 h]

theorem pop_underflow {s : State} (h : s.sp = 0) :
    s.pop = .error (.raise .stackUnderflow s.pc.toNat) := by
  simp [State.pop, h]

theorem sp_pred_toNat {w : Word} (h : w ≠ 0) : (w - 1).toNat = w.toNat - 1 := by
  have hw : w.toNat ≠ 0 := fun e => h (BitVec.eq_of_toNat_eq (by simpa using e))
  have hlt := w.isLt
  have h1 : (1 : Word).toNat = 1 := rfl
  rw [BitVec.toNat_sub, h1]
  omega

theorem pop_ok {s : State} (h0 : s.sp ≠ 0) (h : (s.sp - 1).toNat < 16) :
    s.pop = .ok (s.stack[(s.sp - 1).toNat], { s with sp := s.sp - 1 }) := by
  unfold State.pop
  rw [if_neg h0, dif_pos h]

theorem pop_stuck {s : State} (h : 16 < s.sp.toNat) :
    s.pop = .error (.stuck .stackPointerIllegal) := by
  have h0 : s.sp ≠ 0 := by rintro e; simp [e] at h
  have hp := sp_pred_toNat h0
  unfold State.pop
  rw [if_neg h0, dif_neg (by omega)]

/-! Memory. -/

theorem memRead_ok {s : State} {a : Nat} (h : a ≤ 0xFFF) : s.memRead a = .ok (s.readByte a) := by
  simp [State.memRead, Nat.not_lt.2 h]

theorem memRead_range {s : State} {a : Nat} (h : 0xFFF < a) :
    s.memRead a = .error (.raise .memRange a) := by
  simp [State.memRead, h]

/-- The bytes at addr, addr + 1, …, as a list. -/
def bytesAt (s : State) (addr n : Nat) : List Byte := (List.range n).map fun k => s.readByte (addr + k)

@[simp] theorem bytesAt_length (s : State) (addr n : Nat) : (bytesAt s addr n).length = n := by
  simp [bytesAt]

theorem bytesAt_getElem (s : State) (addr n k : Nat) (h : k < (bytesAt s addr n).length) :
    (bytesAt s addr n)[k] = s.readByte (addr + k) := by
  simp [bytesAt]

theorem bytesAt_succ (s : State) (addr n : Nat) :
    bytesAt s addr (n + 1) = s.readByte addr :: bytesAt s (addr + 1) n := by
  simp only [bytesAt, List.range_succ_eq_map, List.map_cons, List.map_map, Nat.add_zero]
  congr 1
  apply List.map_congr_left
  intro k _
  simp [Nat.add_assoc, Nat.add_comm 1 k]

theorem memReadRange_ok {s : State} {addr n : Nat} (h : n = 0 ∨ addr + n ≤ 0x1000) :
    s.memReadRange addr n = .ok (bytesAt s addr n) := by
  induction n generalizing addr with
  | zero => rfl
  | succ n ih =>
    rw [State.memReadRange, memRead_ok (by omega), ih (by omega), bytesAt_succ]
    rfl

/-- The first address above 0xFFF names the fault. -/
theorem memReadRange_range {s : State} {addr n : Nat} (hn : 0 < n) (h : 0x1000 < addr + n) :
    s.memReadRange addr n = .error (.raise .memRange (max addr 0x1000)) := by
  induction n generalizing addr with
  | zero => omega
  | succ n ih =>
    rw [State.memReadRange]
    by_cases ha : addr ≤ 0xFFF
    · rw [memRead_ok ha]
      simp only [ih (by omega) (by omega : 0x1000 < addr + 1 + n), map_error]
      congr 2; omega
    · rw [memRead_range (by omega)]
      simp only
      congr 2; omega

theorem checkWriteRange_ok {addr n : Nat} (hlo : n = 0 ∨ 0x200 ≤ addr) (hhi : n = 0 ∨ addr + n ≤ 0x1000) :
    checkWriteRange addr n = .ok () := by
  induction n generalizing addr with
  | zero => rfl
  | succ n ih =>
    have hc : checkWrite addr = .ok () := by
      unfold checkWrite
      rw [if_neg (by omega), if_neg (by simp only [Config.programOffset]; omega)]
    rw [checkWriteRange, hc]
    exact ih (by omega) (by omega)

theorem checkWriteRange_protected {addr n : Nat} (hn : 0 < n) (h : addr < 0x200) :
    checkWriteRange addr n = .error (.raise .protectedWrite addr) := by
  cases n with
  | zero => omega
  | succ n =>
    have hc : checkWrite addr = .error (.raise .protectedWrite addr) := by
      unfold checkWrite
      rw [if_neg (by omega), if_pos (by simp only [Config.programOffset]; omega)]
    rw [checkWriteRange, hc]

theorem checkWriteRange_range {addr n : Nat} (hn : 0 < n) (hlo : 0x200 ≤ addr)
    (h : 0x1000 < addr + n) :
    checkWriteRange addr n = .error (.raise .memRange (max addr 0x1000)) := by
  induction n generalizing addr with
  | zero => omega
  | succ n ih =>
    rw [checkWriteRange]
    by_cases ha : addr ≤ 0xFFF
    · have hc : checkWrite addr = .ok () := by
        unfold checkWrite
        rw [if_neg (by omega), if_neg (by simp only [Config.programOffset]; omega)]
      rw [hc]
      simp only [ih (by omega) (by omega) (by omega : 0x1000 < addr + 1 + n)]
      congr 2; omega
    · have hc : checkWrite addr = .error (.raise .memRange addr) := by
        unfold checkWrite; rw [if_pos (by omega)]
      rw [hc]
      simp only
      congr 2; omega

theorem memWriteBytes_ok {s : State} {addr : Nat} {bs : List Byte} (hlo : 0x200 ≤ addr)
    (hhi : addr + bs.length ≤ 0x1000) : s.memWriteBytes addr bs = .ok (s.storeBytes addr bs) := by
  rw [State.memWriteBytes, checkWriteRange_ok (.inr hlo) (.inr hhi)]; rfl

/-- Everything a checked store can do: store all its bytes, or trap. -/
theorem memWriteBytes_cases (s : State) (addr : Nat) (bs : List Byte) :
    (s.memWriteBytes addr bs = .ok (s.storeBytes addr bs) ∧
      (bs = [] ∨ 0x200 ≤ addr ∧ addr + bs.length ≤ 0x1000)) ∨
    (s.memWriteBytes addr bs = .error (.raise .protectedWrite addr) ∧ addr < 0x200) ∨
    (s.memWriteBytes addr bs = .error (.raise .memRange (max addr 0x1000)) ∧
      0x200 ≤ addr ∧ 0x1000 < addr + bs.length) := by
  cases bs with
  | nil => exact .inl ⟨rfl, .inl rfl⟩
  | cons b bs =>
    by_cases h1 : addr < 0x200
    · refine .inr (.inl ⟨?_, h1⟩)
      rw [State.memWriteBytes, checkWriteRange_protected (by simp) h1]; rfl
    · by_cases h2 : addr + (b :: bs).length ≤ 0x1000
      · exact .inl ⟨memWriteBytes_ok (by omega) h2, .inr ⟨by omega, h2⟩⟩
      · refine .inr (.inr ⟨?_, by omega, by omega⟩)
        rw [State.memWriteBytes, checkWriteRange_range (by simp) (by omega) (by omega)]; rfl

theorem readByte_storeBytes_other (s : State) (addr : Nat) (bs : List Byte) (a : Nat)
    (h : a < addr ∨ addr + bs.length ≤ a) : (s.storeBytes addr bs).readByte a = s.readByte a :=
  Memory.read_writeBytes_other s.mem addr bs a h

theorem readByte_congr {s t : State} (h : t.mem = s.mem) (a : Nat) : t.readByte a = s.readByte a := by
  unfold State.readByte; rw [h]

/-! Fetch, keypad, cycle. -/

theorem fetchWord_ok {s : State} (h : s.pc.toNat ≤ 0xFFE) :
    s.fetchWord = .ok (wordOfBytes (s.readByte s.pc.toNat) (s.readByte (s.pc.toNat + 1))) := by
  simp [State.fetchWord, show ¬ s.pc.toNat + 1 > 0xFFF by omega]

theorem fetchWord_range {s : State} (h : 0xFFE < s.pc.toNat) :
    s.fetchWord = .error (.raise .fetchRange s.pc.toNat) := by
  simp [State.fetchWord, show s.pc.toNat + 1 > 0xFFF by omega]

theorem decode0_error {w : Word} {e : DecodeError} (h : decode0 w = .error e) :
    e = .invalidOpcode w := by
  unfold decode0 at h
  split at h
  · cases h
  · split at h
    · cases h
    · cases h; rfl

theorem decode8_error {w : Word} {e : DecodeError} (h : decode8 w = .error e) :
    e = .invalidOpcode w := by
  unfold decode8 at h; split at h <;> cases h; rfl

theorem decodeE_error {w : Word} {e : DecodeError} (h : decodeE w = .error e) :
    e = .invalidOpcode w := by
  unfold decodeE at h; split at h <;> cases h; rfl

theorem decodeF_error {w : Word} {e : DecodeError} (h : decodeF w = .error e) :
    e = .invalidOpcode w := by
  unfold decodeF at h; split at h <;> cases h; rfl

/-- A word that does not decode is rejected by its own raw value. -/
theorem decode_error {w : Word} {e : DecodeError} (h : decode w = .error e) :
    e = .invalidOpcode w := by
  unfold decode at h
  split at h
  case h_1 => exact decode0_error h
  case h_9 => exact decode8_error h
  case h_15 => exact decodeE_error h
  case h_16 => exact decodeF_error h
  case h_6 => split at h <;> cases h; rfl
  case h_10 => split at h <;> cases h; rfl
  all_goals first | (cases h; rfl) | cases h

theorem keyRead_ok {s : State} {k : Nat} (h : k < 16) : s.keyRead k = .ok s.key[k] := by
  simp [State.keyRead, h]

theorem keyRead_range {s : State} {k : Nat} (h : 16 ≤ k) :
    s.keyRead k = .error (.raise .keyRange k) := by
  simp [State.keyRead, Nat.not_lt.2 h]

theorem firstKey_none {s : State} : s.firstKey = none ↔ ∀ k : KeyCode, s.key[k] = false := by
  simp [State.firstKey]

/-- The key found is pressed, and no lesser key is. -/
theorem firstKey_some {s : State} {k : KeyCode} (h : s.firstKey = some k) :
    s.key[k] = true ∧ ∀ j : KeyCode, j < k → s.key[j] = false := by
  unfold State.firstKey at h
  rw [List.find?_eq_some_iff_getElem] at h
  obtain ⟨hk, i, hi, he, hlt⟩ := h
  refine ⟨by simpa using hk, fun j hj => ?_⟩
  simp only [List.getElem_finRange] at he
  have hji : j.val < i := by rw [← he] at hj; simpa [Fin.lt_def] using hj
  have := hlt j.val hji
  simpa using this

theorem endCycle_faulted {s : State} (h : s.fault.isSome = true) : s.endCycle = s := by
  simp [State.endCycle, h]

theorem endCycle_tick {s : State} (h : s.fault = none) (hc : s.cycles % 8 = 0) :
    s.endCycle = { s.timerTick with cycles := s.cycles + 1 } := by
  simp [State.endCycle, h, Config.timerDivider, hc]

theorem endCycle_plain {s : State} (h : s.fault = none) (hc : s.cycles % 8 ≠ 0) :
    s.endCycle = { s with cycles := s.cycles + 1 } := by
  simp [State.endCycle, h, Config.timerDivider, hc]

end Sys2Proof.Machine
end

