-- ==== Sys2Proof/Laws/Exec.lean ====
section
/-! SUPPORT. What each instruction that can trap does: one equation per way it ends, and one inversion lemma
that says these are all. Every other instruction is one update of the state, by `rfl`. -/

namespace Sys2Proof.Machine

/-- An instruction that answers a next state completed, or latched a fault on the state it found. -/
theorem endInstr_next {ins : Instr} {s t : State} {r : Except Trap State}
    (h : endInstr ins s r = .next t) :
    r = .ok t ∨ ∃ c n, r = .error (.raise c n) ∧ t = s.raiseFault c n (some (encode ins)) := by
  cases r with
  | ok s' => cases h; exact .inl rfl
  | error t' =>
    cases t' with
    | raise c n => cases h; exact .inr ⟨c, n, rfl, rfl⟩
    | stuck f => cases h

/-! RET and CALL. -/

theorem exec_ret_ok {s : State} (h0 : s.sp ≠ 0) (h : (s.sp - 1).toNat < 16) :
    exec .ret s = .next
      (({ s with sp := s.sp - 1 } : State).setPc (s.stack[(s.sp - 1).toNat] + 2)) := by
  show endInstr _ _ _ = _
  rw [pop_ok h0 h]; rfl

theorem exec_ret_underflow {s : State} (h : s.sp = 0) :
    exec .ret s = .next (s.raiseFault .stackUnderflow s.pc.toNat (some (encode .ret))) := by
  show endInstr _ _ _ = _
  rw [pop_underflow h]; rfl

theorem exec_ret_stuck {s : State} (h : 16 < s.sp.toNat) :
    exec .ret s = .fault .stackPointerIllegal := by
  show endInstr _ _ _ = _
  rw [pop_stuck h]; rfl

theorem exec_ret_cases {s t : State} (h : exec .ret s = .next t) :
    (s.sp = 0 ∧ t = s.raiseFault .stackUnderflow s.pc.toNat (some (encode .ret))) ∨
    (s.sp ≠ 0 ∧ ∃ hlt : (s.sp - 1).toNat < 16,
      t = ({ s with sp := s.sp - 1 } : State).setPc (s.stack[(s.sp - 1).toNat] + 2)) := by
  by_cases h0 : s.sp = 0
  · rw [exec_ret_underflow h0] at h; cases h; exact .inl ⟨h0, rfl⟩
  · by_cases hlt : (s.sp - 1).toNat < 16
    · rw [exec_ret_ok h0 hlt] at h; cases h; exact .inr ⟨h0, hlt, rfl⟩
    · have hp := sp_pred_toNat h0
      rw [exec_ret_stuck (by omega)] at h; cases h

theorem exec_call_ok {nnn : Addr12} {s : State} (h : s.sp.toNat < 16) :
    exec (.call nnn) s = .next (({ s with
      stack := s.stack.set s.sp.toNat s.pc, sp := s.sp + 1 } : State).setPc (addrOperand nnn)) := by
  show endInstr _ _ _ = _
  rw [push_ok h]; rfl

theorem exec_call_overflow {nnn : Addr12} {s : State} (h : 16 ≤ s.sp.toNat) :
    exec (.call nnn) s =
      .next (s.raiseFault .stackOverflow s.pc.toNat (some (encode (.call nnn)))) := by
  show endInstr _ _ _ = _
  rw [push_overflow h]; rfl

theorem exec_call_cases {nnn : Addr12} {s t : State} (h : exec (.call nnn) s = .next t) :
    (16 ≤ s.sp.toNat ∧
      t = s.raiseFault .stackOverflow s.pc.toNat (some (encode (.call nnn)))) ∨
    ∃ hlt : s.sp.toNat < 16, t = ({ s with
      stack := s.stack.set s.sp.toNat s.pc, sp := s.sp + 1 } : State).setPc (addrOperand nnn) := by
  by_cases hlt : s.sp.toNat < 16
  · rw [exec_call_ok hlt] at h; cases h; exact .inr ⟨hlt, rfl⟩
  · rw [exec_call_overflow (by omega)] at h; cases h; exact .inl ⟨by omega, rfl⟩

/-! DRW and LD Vx, [I]. -/

theorem exec_drw_ok {x y : Reg} {n : Nat} {s : State} (h : n = 0 ∨ s.i.toNat + n ≤ 0x1000) :
    exec (.drw x y n) s = .next (s.drawSprite (s.readReg x).toNat (s.readReg y).toNat
      (bytesAt s s.i.toNat n)).nextInstr := by
  show endInstr _ _ (Except.map _ (s.memReadRange s.i.toNat _)) = _
  rw [memReadRange_ok h]; rfl

theorem exec_drw_range {x y : Reg} {n : Nat} {s : State} (hn : 0 < n) (h : 0x1000 < s.i.toNat + n) :
    exec (.drw x y n) s =
      .next (s.raiseFault .memRange (max s.i.toNat 0x1000) (some (encode (.drw x y n)))) := by
  show endInstr _ _ (Except.map _ (s.memReadRange s.i.toNat _)) = _
  rw [memReadRange_range hn h]; rfl

theorem exec_drw_cases {x y : Reg} {n : Nat} {s t : State} (h : exec (.drw x y n) s = .next t) :
    ((n = 0 ∨ s.i.toNat + n ≤ 0x1000) ∧ t = (s.drawSprite (s.readReg x).toNat (s.readReg y).toNat
      (bytesAt s s.i.toNat n)).nextInstr) ∨
    (0x1000 < s.i.toNat + n ∧
      t = s.raiseFault .memRange (max s.i.toNat 0x1000) (some (encode (.drw x y n)))) := by
  by_cases hok : n = 0 ∨ s.i.toNat + n ≤ 0x1000
  · rw [exec_drw_ok hok] at h; cases h; exact .inl ⟨hok, rfl⟩
  · rw [exec_drw_range (by omega) (by omega)] at h; cases h; exact .inr ⟨by omega, rfl⟩

theorem exec_ldRegs_ok {x : Reg} {s : State} (h : s.i.toNat + x.val ≤ 0xFFF) :
    exec (.ldRegs x) s = .next
      ((s.loadRegs (bytesAt s s.i.toNat (x.val + 1))).indexPast x).nextInstr := by
  show endInstr _ _ (Except.map _ (s.memReadRange s.i.toNat _)) = _
  rw [memReadRange_ok (.inr (by omega))]; rfl

theorem exec_ldRegs_range {x : Reg} {s : State} (h : 0xFFF < s.i.toNat + x.val) :
    exec (.ldRegs x) s =
      .next (s.raiseFault .memRange (max s.i.toNat 0x1000) (some (encode (.ldRegs x)))) := by
  show endInstr _ _ (Except.map _ (s.memReadRange s.i.toNat _)) = _
  rw [memReadRange_range (by omega) (by omega)]; rfl

theorem exec_ldRegs_cases {x : Reg} {s t : State} (h : exec (.ldRegs x) s = .next t) :
    (s.i.toNat + x.val ≤ 0xFFF ∧
      t = ((s.loadRegs (bytesAt s s.i.toNat (x.val + 1))).indexPast x).nextInstr) ∨
    (0xFFF < s.i.toNat + x.val ∧
      t = s.raiseFault .memRange (max s.i.toNat 0x1000) (some (encode (.ldRegs x)))) := by
  by_cases hok : s.i.toNat + x.val ≤ 0xFFF
  · rw [exec_ldRegs_ok hok] at h; cases h; exact .inl ⟨hok, rfl⟩
  · rw [exec_ldRegs_range (by omega)] at h; cases h; exact .inr ⟨by omega, rfl⟩

/-! LD B, Vx and LD [I], Vx. -/

@[simp] theorem bcdDigits_length (b : Byte) : (bcdDigits b).length = 3 := rfl

theorem exec_ldB_cases (x : Reg) (s : State) :
    (0x200 ≤ s.i.toNat ∧ s.i.toNat + 3 ≤ 0x1000 ∧
      exec (.ldB x) s = .next (s.storeBytes s.i.toNat (bcdDigits (s.readReg x))).nextInstr) ∨
    (s.i.toNat < 0x200 ∧
      exec (.ldB x) s =
        .next (s.raiseFault .protectedWrite s.i.toNat (some (encode (.ldB x))))) ∨
    (0x200 ≤ s.i.toNat ∧ 0x1000 < s.i.toNat + 3 ∧
      exec (.ldB x) s =
        .next (s.raiseFault .memRange (max s.i.toNat 0x1000) (some (encode (.ldB x))))) := by
  have he : exec (.ldB x) s = endInstr (.ldB x) s
      ((s.memWriteBytes s.i.toNat (bcdDigits (s.readReg x))).map fun s' => s'.nextInstr) := rfl
  rw [he]
  rcases memWriteBytes_cases s s.i.toNat (bcdDigits (s.readReg x)) with
    ⟨hr, hb⟩ | ⟨hr, hlo⟩ | ⟨hr, hlo, hhi⟩ <;> rw [hr]
  · rcases hb with hb | ⟨hlo, hhi⟩
    · cases hb
    · exact .inl ⟨hlo, hhi, rfl⟩
  · exact .inr (.inl ⟨hlo, rfl⟩)
  · exact .inr (.inr ⟨hlo, hhi, rfl⟩)

theorem exec_stRegs_cases (x : Reg) (s : State) :
    (0x200 ≤ s.i.toNat ∧ s.i.toNat + x.val + 1 ≤ 0x1000 ∧ exec (.stRegs x) s =
      .next ((s.storeBytes s.i.toNat (s.regsUpTo x)).indexPast x).nextInstr) ∨
    (s.i.toNat < 0x200 ∧
      exec (.stRegs x) s =
        .next (s.raiseFault .protectedWrite s.i.toNat (some (encode (.stRegs x))))) ∨
    (0x200 ≤ s.i.toNat ∧ 0x1000 < s.i.toNat + x.val + 1 ∧
      exec (.stRegs x) s =
        .next (s.raiseFault .memRange (max s.i.toNat 0x1000) (some (encode (.stRegs x))))) := by
  have he : exec (.stRegs x) s = endInstr (.stRegs x) s
      ((s.memWriteBytes s.i.toNat (s.regsUpTo x)).map fun s' => (s'.indexPast x).nextInstr) := rfl
  have hlen := regsUpTo_length s x
  rw [he]
  rcases memWriteBytes_cases s s.i.toNat (s.regsUpTo x) with
    ⟨hr, hb⟩ | ⟨hr, hlo⟩ | ⟨hr, hlo, hhi⟩ <;> rw [hr]
  · rcases hb with hb | ⟨hlo, hhi⟩
    · rw [hb] at hlen; cases hlen
    · exact .inl ⟨hlo, by omega, rfl⟩
  · exact .inr (.inl ⟨hlo, rfl⟩)
  · exact .inr (.inr ⟨hlo, by omega, rfl⟩)

/-! SKP, SKNP and LD Vx, K. -/

theorem exec_skp_cases (x : Reg) (s : State) :
    (∃ h : (s.readReg x).toNat < 16,
      exec (.skp x) s = .next (s.skipIf s.key[(s.readReg x).toNat])) ∨
    (0xF < (s.readReg x).toNat ∧ exec (.skp x) s =
      .next (s.raiseFault .keyRange (s.readReg x).toNat (some (encode (.skp x))))) := by
  have he : exec (.skp x) s =
      endInstr (.skp x) s ((s.keyRead (s.readReg x).toNat).map fun p => s.skipIf p) := rfl
  rw [he]
  by_cases h : (s.readReg x).toNat < 16
  · rw [keyRead_ok h]; exact .inl ⟨h, rfl⟩
  · rw [keyRead_range (by omega)]; exact .inr ⟨by omega, rfl⟩

theorem exec_sknp_cases (x : Reg) (s : State) :
    (∃ h : (s.readReg x).toNat < 16,
      exec (.sknp x) s = .next (s.skipIf !s.key[(s.readReg x).toNat])) ∨
    (0xF < (s.readReg x).toNat ∧ exec (.sknp x) s =
      .next (s.raiseFault .keyRange (s.readReg x).toNat (some (encode (.sknp x))))) := by
  have he : exec (.sknp x) s =
      endInstr (.sknp x) s ((s.keyRead (s.readReg x).toNat).map fun p => s.skipIf !p) := rfl
  rw [he]
  by_cases h : (s.readReg x).toNat < 16
  · rw [keyRead_ok h]; exact .inl ⟨h, rfl⟩
  · rw [keyRead_range (by omega)]; exact .inr ⟨by omega, rfl⟩

theorem exec_ldK_cases (x : Reg) (s : State) :
    (∃ k, s.firstKey = some k ∧
      exec (.ldK x) s = .next (s.writeReg x (BitVec.ofNat 8 k.val)).nextInstr) ∨
    (s.firstKey = none ∧ exec (.ldK x) s = .next s) := by
  have he : exec (.ldK x) s = execLdK x s := rfl
  rw [he, execLdK]
  cases h : s.firstKey with
  | some k => exact .inl ⟨k, rfl, rfl⟩
  | none => exact .inr ⟨rfl, rfl⟩

/-! A field no instruction writes. -/

/-- Only the tick emits Beeps. -/
theorem exec_beeps {i : Instr} {s t : State} (h : exec i s = .next t) : t.beeps = s.beeps := by
  cases i with
  | ret => rcases exec_ret_cases h with ⟨-, rfl⟩ | ⟨-, -, rfl⟩ <;> rfl
  | call nnn => rcases exec_call_cases h with ⟨-, rfl⟩ | ⟨-, rfl⟩ <;> rfl
  | drw x y n => rcases exec_drw_cases h with ⟨-, rfl⟩ | ⟨-, rfl⟩ <;> rfl
  | ldRegs x => rcases exec_ldRegs_cases h with ⟨-, rfl⟩ | ⟨-, rfl⟩ <;> rfl
  | ldB x =>
    rcases exec_ldB_cases x s with ⟨-, -, he⟩ | ⟨-, he⟩ | ⟨-, -, he⟩ <;> rw [he] at h <;> cases h <;> rfl
  | stRegs x =>
    rcases exec_stRegs_cases x s with ⟨-, -, he⟩ | ⟨-, he⟩ | ⟨-, -, he⟩ <;> rw [he] at h <;> cases h <;>
      rfl
  | skp x => rcases exec_skp_cases x s with ⟨_, he⟩ | ⟨-, he⟩ <;> rw [he] at h <;> cases h <;> rfl
  | sknp x => rcases exec_sknp_cases x s with ⟨_, he⟩ | ⟨-, he⟩ <;> rw [he] at h <;> cases h <;> rfl
  | ldK x => rcases exec_ldK_cases x s with ⟨_, -, he⟩ | ⟨-, he⟩ <;> rw [he] at h <;> cases h <;> rfl
  | _ => cases h; rfl

end Sys2Proof.Machine
end

