-- ==== Sys2Proof/Laws/PerInstr.lean ====
section
/-! SUPPORT. Per-instruction families. `EncodingMeetsTable`: the word of every instruction has the literal bits
of its row of spec/opcode_table.json. -/

namespace Sys2Proof.Laws

/-! The literal bits of each format. -/

theorem and_allOnes4 (a : BitVec 4) : a &&& 0xF = a := by decide +revert

theorem formatA_and_op (op : BitVec 4) (nnn : Addr12) :
    formatA op nnn &&& ((0xF : BitVec 4) ++ (0 : Addr12)) = formatA op 0 := by
  rw [formatA, formatA, BitVec.and_append, and_allOnes4]
  exact congrArg (op ++ ·) BitVec.and_zero

theorem formatXK_and (op : BitVec 4) (x : Reg) (kk m : Byte) :
    formatXK op x kk &&& ((0xF : BitVec 4) ++ ((0 : BitVec 4) ++ m)) = formatXK op 0 (kk &&& m) := by
  rw [formatXK, formatXK, BitVec.and_append, BitVec.and_append, and_allOnes4]
  exact congrArg (fun r : BitVec 4 => op ++ (r ++ (kk &&& m))) BitVec.and_zero

theorem formatXK_and_op (op : BitVec 4) (x : Reg) (kk : Byte) :
    formatXK op x kk &&& ((0xF : BitVec 4) ++ ((0 : BitVec 4) ++ (0 : Byte))) = formatXK op 0 0 :=
  (formatXK_and op x kk 0).trans (congrArg (formatXK op 0) BitVec.and_zero)

theorem formatXYN_and (op : BitVec 4) (x y : Reg) (n m : BitVec 4) :
    formatXYN op x y n &&& ((0xF : BitVec 4) ++ ((0 : BitVec 4) ++ ((0 : BitVec 4) ++ m))) =
      formatXYN op 0 0 (n &&& m) := by
  rw [formatXYN, formatXYN, BitVec.and_append, BitVec.and_append, BitVec.and_append, and_allOnes4]
  have hx : regBits x &&& 0 = regBits 0 := BitVec.and_zero
  have hy : regBits y &&& 0 = regBits 0 := BitVec.and_zero
  rw [hx, hy]

theorem formatXYN_and_op (op : BitVec 4) (x y : Reg) (n : BitVec 4) :
    formatXYN op x y n &&& ((0xF : BitVec 4) ++ ((0 : BitVec 4) ++ ((0 : BitVec 4) ++ (0 : BitVec 4)))) =
      formatXYN op 0 0 0 :=
  (formatXYN_and op x y n 0).trans (congrArg (formatXYN op 0 0) BitVec.and_zero)

/-- The mask and the match of the instruction's row. -/
def tableRow : Instr → Word × Word
  | .cls => (0xFFFF, 0x00E0)
  | .ret => (0xFFFF, 0x00EE)
  | .jp _ => (0xF000, 0x1000)
  | .call _ => (0xF000, 0x2000)
  | .seImm _ _ => (0xF000, 0x3000)
  | .sneImm _ _ => (0xF000, 0x4000)
  | .seReg _ _ => (0xF00F, 0x5000)
  | .ldImm _ _ => (0xF000, 0x6000)
  | .addImm _ _ => (0xF000, 0x7000)
  | .ldReg _ _ => (0xF00F, 0x8000)
  | .orReg _ _ => (0xF00F, 0x8001)
  | .andReg _ _ => (0xF00F, 0x8002)
  | .xorReg _ _ => (0xF00F, 0x8003)
  | .addReg _ _ => (0xF00F, 0x8004)
  | .sub _ _ => (0xF00F, 0x8005)
  | .shr _ _ => (0xF00F, 0x8006)
  | .subn _ _ => (0xF00F, 0x8007)
  | .shl _ _ => (0xF00F, 0x800E)
  | .sneReg _ _ => (0xF00F, 0x9000)
  | .ldI _ => (0xF000, 0xA000)
  | .jpV0 _ => (0xF000, 0xB000)
  | .rnd _ _ => (0xF000, 0xC000)
  | .drw _ _ _ => (0xF000, 0xD000)
  | .skp _ => (0xF0FF, 0xE09E)
  | .sknp _ => (0xF0FF, 0xE0A1)
  | .ldVxDt _ => (0xF0FF, 0xF007)
  | .ldK _ => (0xF0FF, 0xF00A)
  | .ldDt _ => (0xF0FF, 0xF015)
  | .ldSt _ => (0xF0FF, 0xF018)
  | .addI _ => (0xF0FF, 0xF01E)
  | .ldF _ => (0xF0FF, 0xF029)
  | .ldB _ => (0xF0FF, 0xF033)
  | .stRegs _ => (0xF0FF, 0xF055)
  | .ldRegs _ => (0xF0FF, 0xF065)

/-- The word of the instruction, under its row's mask, is its row's match. -/
def EncodingMeetsTable.Statement (i : Instr) : Prop := encode i &&& (tableRow i).1 = (tableRow i).2

theorem EncodingMeetsTable.cls : Statement .cls :=
  rfl

theorem EncodingMeetsTable.ret : Statement .ret :=
  rfl

theorem EncodingMeetsTable.jp (nnn : Addr12) : Statement (.jp nnn) :=
  formatA_and_op _ nnn

theorem EncodingMeetsTable.call (nnn : Addr12) : Statement (.call nnn) :=
  formatA_and_op _ nnn

theorem EncodingMeetsTable.seImm (x : Reg) (kk : Byte) : Statement (.seImm x kk) :=
  formatXK_and_op _ x kk

theorem EncodingMeetsTable.sneImm (x : Reg) (kk : Byte) : Statement (.sneImm x kk) :=
  formatXK_and_op _ x kk

theorem EncodingMeetsTable.seReg (x : Reg) (y : Reg) : Statement (.seReg x y) :=
  formatXYN_and _ x y _ 0xF

theorem EncodingMeetsTable.ldImm (x : Reg) (kk : Byte) : Statement (.ldImm x kk) :=
  formatXK_and_op _ x kk

theorem EncodingMeetsTable.addImm (x : Reg) (kk : Byte) : Statement (.addImm x kk) :=
  formatXK_and_op _ x kk

theorem EncodingMeetsTable.ldReg (x : Reg) (y : Reg) : Statement (.ldReg x y) :=
  formatXYN_and _ x y _ 0xF

theorem EncodingMeetsTable.orReg (x : Reg) (y : Reg) : Statement (.orReg x y) :=
  formatXYN_and _ x y _ 0xF

theorem EncodingMeetsTable.andReg (x : Reg) (y : Reg) : Statement (.andReg x y) :=
  formatXYN_and _ x y _ 0xF

theorem EncodingMeetsTable.xorReg (x : Reg) (y : Reg) : Statement (.xorReg x y) :=
  formatXYN_and _ x y _ 0xF

theorem EncodingMeetsTable.addReg (x : Reg) (y : Reg) : Statement (.addReg x y) :=
  formatXYN_and _ x y _ 0xF

theorem EncodingMeetsTable.sub (x : Reg) (y : Reg) : Statement (.sub x y) :=
  formatXYN_and _ x y _ 0xF

theorem EncodingMeetsTable.shr (x : Reg) (y : Reg) : Statement (.shr x y) :=
  formatXYN_and _ x y _ 0xF

theorem EncodingMeetsTable.subn (x : Reg) (y : Reg) : Statement (.subn x y) :=
  formatXYN_and _ x y _ 0xF

theorem EncodingMeetsTable.shl (x : Reg) (y : Reg) : Statement (.shl x y) :=
  formatXYN_and _ x y _ 0xF

theorem EncodingMeetsTable.sneReg (x : Reg) (y : Reg) : Statement (.sneReg x y) :=
  formatXYN_and _ x y _ 0xF

theorem EncodingMeetsTable.ldI (nnn : Addr12) : Statement (.ldI nnn) :=
  formatA_and_op _ nnn

theorem EncodingMeetsTable.jpV0 (nnn : Addr12) : Statement (.jpV0 nnn) :=
  formatA_and_op _ nnn

theorem EncodingMeetsTable.rnd (x : Reg) (kk : Byte) : Statement (.rnd x kk) :=
  formatXK_and_op _ x kk

theorem EncodingMeetsTable.drw (x : Reg) (y : Reg) (n : Nat) : Statement (.drw x y n) :=
  formatXYN_and_op _ x y _

theorem EncodingMeetsTable.skp (x : Reg) : Statement (.skp x) :=
  formatXK_and _ x _ 0xFF

theorem EncodingMeetsTable.sknp (x : Reg) : Statement (.sknp x) :=
  formatXK_and _ x _ 0xFF

theorem EncodingMeetsTable.ldVxDt (x : Reg) : Statement (.ldVxDt x) :=
  formatXK_and _ x _ 0xFF

theorem EncodingMeetsTable.ldK (x : Reg) : Statement (.ldK x) :=
  formatXK_and _ x _ 0xFF

theorem EncodingMeetsTable.ldDt (x : Reg) : Statement (.ldDt x) :=
  formatXK_and _ x _ 0xFF

theorem EncodingMeetsTable.ldSt (x : Reg) : Statement (.ldSt x) :=
  formatXK_and _ x _ 0xFF

theorem EncodingMeetsTable.addI (x : Reg) : Statement (.addI x) :=
  formatXK_and _ x _ 0xFF

theorem EncodingMeetsTable.ldF (x : Reg) : Statement (.ldF x) :=
  formatXK_and _ x _ 0xFF

theorem EncodingMeetsTable.ldB (x : Reg) : Statement (.ldB x) :=
  formatXK_and _ x _ 0xFF

theorem EncodingMeetsTable.stRegs (x : Reg) : Statement (.stRegs x) :=
  formatXK_and _ x _ 0xFF

theorem EncodingMeetsTable.ldRegs (x : Reg) : Statement (.ldRegs x) :=
  formatXK_and _ x _ 0xFF

end Sys2Proof.Laws
end

