-- ==== Sys2Proof/Laws/Step.lean ====
section
/-! SUPPORT. Everything a step can do, said once. -/

namespace Sys2Proof.Machine

theorem halted_iff {s : State} : s.halted = true ↔ s.fault ≠ none ∨ s.run = .paused := by
  simp [State.halted, Option.isSome_iff_ne_none]

theorem not_halted {s : State} (hr : s.run = .running) (hf : s.fault = none) : s.halted = false := by
  simp [State.halted, hr, hf]

theorem step_halted {s : State} (h : s.halted = true) : step s = .next s := by
  unfold step; rw [if_pos h]

theorem fetchDecode_willRun {s : State} {i : Instr} (h : s.willRun i) :
    s.fetchDecode = .ok i := by
  obtain ⟨-, -, hpc, hd⟩ := h
  have hd' : decode (wordOfBytes (s.readByte s.pc.toNat) (s.readByte (s.pc.toNat + 1))) = .ok i := hd
  rw [State.fetchDecode, fetchWord_ok hpc]
  simp only [hd']

/-- A step that will run `i` is `exec i`, its cycle ended. -/
theorem step_willRun {s : State} {i : Instr} (h : s.willRun i) :
    step s = match exec i s with
      | .next t => .next t.endCycle
      | .fault r => .fault r
      | .refused r => .refused r := by
  unfold step
  rw [if_neg (by simp [not_halted h.1 h.2.1]), fetchDecode_willRun h] <;> rfl

theorem step_fetchRange {s : State} (hr : s.run = .running) (hf : s.fault = none)
    (hpc : 0xFFE < s.pc.toNat) :
    step s = .next (s.raiseFault .fetchRange s.pc.toNat none) := by
  unfold step
  rw [if_neg (by simp [not_halted hr hf]), State.fetchDecode, fetchWord_range hpc]
  rfl

theorem step_invalid {s : State} {e : DecodeError} (hr : s.run = .running) (hf : s.fault = none)
    (hpc : s.pc.toNat ≤ 0xFFE) (hd : decode s.wordAtPc = .error e) :
    step s = .next (s.raiseFault .invalidOpcode s.wordAtPc.toNat (some s.wordAtPc)) := by
  unfold step
  have hd' : decode (wordOfBytes (s.readByte s.pc.toNat) (s.readByte (s.pc.toNat + 1))) = .error e := hd
  rw [if_neg (by simp [not_halted hr hf]), State.fetchDecode, fetchWord_ok hpc]
  simp only [hd']
  rfl

/-- The four kinds of state a step can meet. -/
theorem step_kinds (s : State) :
    s.halted = true ∨
    (s.run = .running ∧ s.fault = none ∧ 0xFFE < s.pc.toNat) ∨
    (s.run = .running ∧ s.fault = none ∧ s.pc.toNat ≤ 0xFFE ∧
      ∃ e, decode s.wordAtPc = .error e) ∨
    ∃ i, s.willRun i := by
  by_cases hh : s.halted = true
  · exact .inl hh
  have hr : s.run = .running := by
    cases h : s.run with
    | running => rfl
    | paused => exact absurd (halted_iff.2 (.inr h)) hh
  have hf : s.fault = none := by
    cases h : s.fault with
    | none => rfl
    | some f => exact absurd (halted_iff.2 (.inl (by simp [h]))) hh
  by_cases hpc : s.pc.toNat ≤ 0xFFE
  · cases hd : decode s.wordAtPc with
    | error e => exact .inr (.inr (.inl ⟨hr, hf, hpc, e, rfl⟩))
    | ok i => exact .inr (.inr (.inr ⟨i, hr, hf, hpc, hd⟩))
  · exact .inr (.inl ⟨hr, hf, by omega⟩)

/-- What a step that answers a next state has done. -/
theorem step_cases {s t : State} (h : step s = .next t) :
    (s.halted = true ∧ t = s) ∨
    (s.run = .running ∧ s.fault = none ∧ 0xFFE < s.pc.toNat ∧
      t = s.raiseFault .fetchRange s.pc.toNat none) ∨
    (s.run = .running ∧ s.fault = none ∧ s.pc.toNat ≤ 0xFFE ∧
      t = s.raiseFault .invalidOpcode s.wordAtPc.toNat (some s.wordAtPc)) ∨
    ∃ i u, s.willRun i ∧ exec i s = .next u ∧ t = u.endCycle := by
  rcases step_kinds s with hh | ⟨hr, hf, hpc⟩ | ⟨hr, hf, hpc, e, hd⟩ | ⟨i, hi⟩
  · rw [step_halted hh] at h; cases h; exact .inl ⟨hh, rfl⟩
  · rw [step_fetchRange hr hf hpc] at h; cases h; exact .inr (.inl ⟨hr, hf, hpc, rfl⟩)
  · rw [step_invalid hr hf hpc hd] at h; cases h; exact .inr (.inr (.inl ⟨hr, hf, hpc, rfl⟩))
  · rw [step_willRun hi] at h
    refine .inr (.inr (.inr ⟨i, ?_⟩))
    split at h
    · next u hu => cases h; exact ⟨u, hi, hu, rfl⟩
    · cases h
    · cases h

/-! The fields the end of a cycle leaves alone. -/

theorem endCycle_eq (s : State) :
    s.endCycle = s ∨ s.endCycle = { s with cycles := s.cycles + 1 } ∨
      s.endCycle = { s.timerTick with cycles := s.cycles + 1 } := by
  by_cases hf : s.fault = none
  · by_cases hc : s.cycles % 8 = 0
    · exact .inr (.inr (endCycle_tick hf hc))
    · exact .inr (.inl (endCycle_plain hf hc))
  · exact .inl (endCycle_faulted (Option.isSome_iff_ne_none.2 hf))

@[simp] theorem endCycle_v (s : State) : s.endCycle.v = s.v := by
  rcases endCycle_eq s with h | h | h <;> exact (congrArg State.v h).trans rfl
@[simp] theorem endCycle_i (s : State) : s.endCycle.i = s.i := by
  rcases endCycle_eq s with h | h | h <;> exact (congrArg State.i h).trans rfl
@[simp] theorem endCycle_pc (s : State) : s.endCycle.pc = s.pc := by
  rcases endCycle_eq s with h | h | h <;> exact (congrArg State.pc h).trans rfl
@[simp] theorem endCycle_sp (s : State) : s.endCycle.sp = s.sp := by
  rcases endCycle_eq s with h | h | h <;> exact (congrArg State.sp h).trans rfl
@[simp] theorem endCycle_stack (s : State) : s.endCycle.stack = s.stack := by
  rcases endCycle_eq s with h | h | h <;> exact (congrArg State.stack h).trans rfl
@[simp] theorem endCycle_mem (s : State) : s.endCycle.mem = s.mem := by
  rcases endCycle_eq s with h | h | h <;> exact (congrArg State.mem h).trans rfl
@[simp] theorem endCycle_fb (s : State) : s.endCycle.fb = s.fb := by
  rcases endCycle_eq s with h | h | h <;> exact (congrArg State.fb h).trans rfl
@[simp] theorem endCycle_key (s : State) : s.endCycle.key = s.key := by
  rcases endCycle_eq s with h | h | h <;> exact (congrArg State.key h).trans rfl
@[simp] theorem endCycle_newFrame (s : State) : s.endCycle.newFrame = s.newFrame := by
  rcases endCycle_eq s with h | h | h <;> exact (congrArg State.newFrame h).trans rfl
@[simp] theorem endCycle_run (s : State) : s.endCycle.run = s.run := by
  rcases endCycle_eq s with h | h | h <;> exact (congrArg State.run h).trans rfl
@[simp] theorem endCycle_fault (s : State) : s.endCycle.fault = s.fault := by
  rcases endCycle_eq s with h | h | h <;> exact (congrArg State.fault h).trans rfl
@[simp] theorem endCycle_draws (s : State) : s.endCycle.draws = s.draws := by
  rcases endCycle_eq s with h | h | h <;> exact (congrArg State.draws h).trans rfl

/-- The end of a cycle emits at most one Beep, and no step takes one back. -/
theorem endCycle_beeps (s : State) : s.endCycle.beeps = s.beeps ∨ s.endCycle.beeps = s.beeps + 1 := by
  rcases endCycle_eq s with h | h | h <;> rw [h]
  · exact .inl rfl
  · exact .inl rfl
  · by_cases hst : s.st = 1
    · exact .inr (if_pos hst)
    · exact .inl (if_neg hst)

theorem step_beeps {s t : State} (h : step s = .next t) : t.beeps = s.beeps ∨ t.beeps = s.beeps + 1 := by
  rcases step_cases h with ⟨-, rfl⟩ | ⟨-, -, -, rfl⟩ | ⟨-, -, -, rfl⟩ | ⟨i, u, -, hu, rfl⟩
  · exact .inl rfl
  · exact .inl rfl
  · exact .inl rfl
  · rw [← exec_beeps hu]; exact endCycle_beeps u

/-! Frames. -/

theorem onlyChanges_refl (cs : List Component) (s : State) : onlyChanges cs s s := by
  intro c _; cases c <;> first | rfl | exact fun _ => rfl

theorem Component.same_trans {c : Component} {s t u : State} (h : c.same s t) (h' : c.same t u) :
    c.same s u := by
  cases c <;> first | exact h'.trans h | exact fun a => (h' a).trans (h a)

theorem onlyChanges_trans {cs : List Component} {s t u : State} (h : onlyChanges cs s t)
    (h' : onlyChanges cs t u) : onlyChanges cs s u :=
  fun c hc => Component.same_trans (h c hc) (h' c hc)

/-! Runs of steps. -/

@[simp] theorem runSteps_zero (s : State) : runSteps 0 s = .next s := rfl

theorem runSteps_succ {s t : State} (k : Nat) (h : step s = .next t) :
    runSteps (k + 1) s = runSteps k t := by rw [runSteps, h]

/-! Placing an instruction. -/

theorem withFetchWord_pc_le (s : State) (nbits w : Nat) :
    (s.withFetchWord nbits w).pc.toNat ≤ 0xFFE := by
  simp only [State.withFetchWord]
  split
  · decide
  · omega

/-- A word placed by `withFetchWord` is the one the next step runs. -/
theorem withFetchWord_willRun {s : State} {w : Word} {i : Instr} (hm : s.mem.wf = true)
    (hd : decode w = .ok i) : (s.withFetchWord 16 w.toNat).willRun i := by
  refine ⟨rfl, rfl, withFetchWord_pc_le s 16 w.toNat, ?_⟩
  have hpc := withFetchWord_pc_le s 16 w.toNat
  have hw : BitVec.ofNat 16 (w.toNat % 2 ^ 16) = w := by
    rw [Nat.mod_eq_of_lt w.isLt, BitVec.ofNat_toNat, BitVec.setWidth_eq]
  have hr : ∀ k, (hk : k < 2) → (s.withFetchWord 16 w.toNat).readByte
      ((s.withFetchWord 16 w.toNat).pc.toNat + k) = [w.hiByte, w.loByte][k] := by
    intro k hk
    have h := Memory.read_writeBytes_at (a := (s.withFetchWord 16 w.toNat).pc.toNat)
      (bs := [w.hiByte, w.loByte]) hm (by omega)
      (by simp only [List.length_cons, List.length_nil, Config.memSize]; omega) k hk
    rw [← h]
    simp only [State.readByte, State.withFetchWord, hw]
  have h0 := hr 0 (by omega)
  have h1 := hr 1 (by omega)
  have hword : (s.withFetchWord 16 w.toNat).wordAtPc = wordOfBytes w.hiByte w.loByte := by
    unfold State.wordAtPc wordOfBytes
    rw [h1, show (s.withFetchWord 16 w.toNat).pc.toNat = (s.withFetchWord 16 w.toNat).pc.toNat + 0
      from rfl, h0]
    rfl
  rw [hword, wordOfBytes_bytes, hd]

end Sys2Proof.Machine
end

