-- ==== Sys2Proof/Tests/Slice0.lean ====
section
/-! SUPPORT. The model's own tests, and a witness for each statement that has hypotheses. Expected results are
the spec's: its encodings (30_encoding.md R53, R54), its examples and its vectors (95_test_vectors.md; the
vector's id stands in each comment). -/

namespace Sys2Proof.Tests

open Sys2Proof.Machine

/-! ## Well-formedness -/

/-- Ill-formed: a DRW of 16 rows (R52: n is 0 to 15). -/
theorem test_wf_refuses_sixteen_rows : Instr.wf (.drw 1 2 16) = false := by decide

theorem test_wf_accepts_fifteen_rows : Instr.wf (.drw 1 2 15) = true := by decide

/-! ## Decoding: one word per constructor, written out from R53 and R54 -/

def decodesTo (w : Word) (i : Instr) : Bool :=
  match decode w with
  | .ok j => decide (j = i)
  | .error _ => false

def isInvalid (w : Word) : Bool :=
  match decode w with
  | .ok _ => false
  | .error e => decide (e = .invalidOpcode w)

theorem test_decode_control :
    decodesTo 0b0000000011100000 .cls ∧ decodesTo 0b0000000011101110 .ret ∧
    decodesTo 0b0001101010111100 (.jp 0xABC) ∧ decodesTo 0b0010001000010000 (.call 0x210) ∧
    decodesTo 0b0011001111000101 (.seImm 0x3 0xC5) ∧ decodesTo 0b0100001111000101 (.sneImm 0x3 0xC5) ∧
    decodesTo 0b0101000100100000 (.seReg 0x1 0x2) ∧ decodesTo 0b1001000100100000 (.sneReg 0x1 0x2) ∧
    decodesTo 0b1011000100100011 (.jpV0 0x123) := by decide

theorem test_decode_alu :
    decodesTo 0b0110101000101010 (.ldImm 0xA 0x2A) ∧ decodesTo 0b0111000111111110 (.addImm 0x1 0xFE) ∧
    decodesTo 0b1000000100100000 (.ldReg 0x1 0x2) ∧ decodesTo 0b1000000100100001 (.orReg 0x1 0x2) ∧
    decodesTo 0b1000000100100010 (.andReg 0x1 0x2) ∧ decodesTo 0b1000000100100011 (.xorReg 0x1 0x2) ∧
    decodesTo 0b1000000100100100 (.addReg 0x1 0x2) ∧ decodesTo 0b1000000100100101 (.sub 0x1 0x2) ∧
    decodesTo 0b1000000100100110 (.shr 0x1 0x2) ∧ decodesTo 0b1000000100100111 (.subn 0x1 0x2) ∧
    decodesTo 0b1000000100101110 (.shl 0x1 0x2) ∧ decodesTo 0b1100010000001111 (.rnd 0x4 0x0F) := by
  decide

theorem test_decode_display_index :
    decodesTo 0b1101000100101010 (.drw 0x1 0x2 10) ∧ decodesTo 0b1101000100100000 (.drw 0x1 0x2 0) ∧
    decodesTo 0b1010001100000000 (.ldI 0x300) ∧ decodesTo 0b1111001000011110 (.addI 0x2) ∧
    decodesTo 0b1111000000101001 (.ldF 0x0) ∧ decodesTo 0b1111101000110011 (.ldB 0xA) ∧
    decodesTo 0b1111000101010101 (.stRegs 0x1) ∧ decodesTo 0b1111111101100101 (.ldRegs 0xF) := by
  decide

theorem test_decode_keypad_timers :
    decodesTo 0b1110010110011110 (.skp 0x5) ∧ decodesTo 0b1110000110100001 (.sknp 0x1) ∧
    decodesTo 0b1111000100000111 (.ldVxDt 0x1) ∧ decodesTo 0b1111001100001010 (.ldK 0x3) ∧
    decodesTo 0b1111000000010101 (.ldDt 0x0) ∧ decodesTo 0b1111001000011000 (.ldSt 0x2) := by decide

/-- E3, E4, E5, E9, E11, E12, E14, E15, E17, E18. -/
theorem test_decode_invalid :
    isInvalid 0x0000 ∧ isInvalid 0x0123 ∧ isInvalid 0x00E1 ∧ isInvalid 0x5121 ∧ isInvalid 0x8128 ∧
    isInvalid 0x812F ∧ isInvalid 0x9121 ∧ isInvalid 0xE19F ∧ isInvalid 0xF100 ∧ isInvalid 0xF130 := by
  decide

/-- The table's number of a word is the word itself, laid out big-endian (R36). -/
theorem test_decodeTableWord : decodeTableWord 16 0xD12A = some (.drw 0x1 0x2 10) := by decide

/-! ## One step each. The start state is reset with `cycles` = 1, as the vectors have it. -/

/-- The start state of the vectors, made different by `f`. -/
def start (f : State → State) : State := f { State.reset with cycles := 1 }

/-- The instruction placed at PC runs, and `p` holds of the next state. -/
def runs (w : Nat) (s : State) (p : State → Bool) : Bool :=
  match step (s.withFetchWord 16 w) with
  | .next t => p t
  | .fault _ => false
  | .refused _ => false

/-- A fault record is latched, with PC and `cycles` as at the start. -/
def latches (w : Nat) (s : State) (code : FaultCode) (info : Nat) : Bool :=
  runs w s fun t =>
    decide (t.fault = some { code := code, pc := s.pc, opcode := some (BitVec.ofNat 16 w), info := info })
      && decide (t.pc = s.pc) && decide (t.cycles = s.cycles)

def withRegs (l : List (Reg × Byte)) (s : State) : State :=
  l.foldl (fun s p => s.writeReg p.1 p.2) s

def withMem (addr : Nat) (bs : List Byte) (s : State) : State := s.storeBytes addr bs

/-- D1. -/
theorem test_cls : runs 0x00E0 (start fun s => { s with fb := 0xFF, newFrame := false })
    (fun t => decide (t.fb = 0) && t.newFrame && decide (t.pc = 0x202)) := by decide +kernel

/-- C2 and C3. -/
theorem test_ret : runs 0x00EE (start fun s => { s with sp := 1, stack := s.stack.set 0 0x204 })
    (fun t => decide (t.sp = 0) && decide (t.pc = 0x206) && decide (t.stack[0] = 0x204)) := by decide

theorem test_ret_underflow : latches 0x00EE (start fun s => { s with pc := 0x300 })
    .stackUnderflow 0x300 := by decide

/-- C5. -/
theorem test_jp : runs 0x1204 (start fun s => { s with pc := 0x20A }) (fun t => decide (t.pc = 0x204)) := by
  decide

/-- C1 and C4. -/
theorem test_call : runs 0x2210 (start fun s => { s with pc := 0x204 })
    (fun t => decide (t.stack[0] = 0x204) && decide (t.sp = 1) && decide (t.pc = 0x210)) := by decide

theorem test_call_overflow : latches 0x2400 (start fun s => { s with pc := 0x300, sp := 16 })
    .stackOverflow 0x300 := by decide

/-- C10 and C11. -/
theorem test_seImm : runs 0x3300 (start fun s => { s with pc := 0x208 }) (fun t => decide (t.pc = 0x20C)) ∧
    runs 0x3300 (start fun s => withRegs [(3, 1)] { s with pc := 0x208 })
      (fun t => decide (t.pc = 0x20A)) := by decide

/-- C12 and C13. -/
theorem test_sneImm : runs 0x4305 (start fun s => withRegs [(3, 5)] { s with pc := 0x208 })
      (fun t => decide (t.pc = 0x20A)) ∧
    runs 0x4305 (start fun s => withRegs [(3, 6)] { s with pc := 0x208 })
      (fun t => decide (t.pc = 0x20C)) := by decide

/-- C14. -/
theorem test_seReg : runs 0x5120 (start fun s => withRegs [(1, 0x7F), (2, 0x7F)] s)
    (fun t => decide (t.pc = 0x204)) := by decide

/-- C16 and C17. -/
theorem test_sneReg : runs 0x9120 (start fun s => withRegs [(1, 1), (2, 2)] s)
      (fun t => decide (t.pc = 0x204)) ∧
    runs 0x9110 (start id) (fun t => decide (t.pc = 0x202)) := by decide

/-- C8. -/
theorem test_jpV0 : runs 0xBFFF (start fun s => withRegs [(0, 0xFF)] s)
    (fun t => decide (t.pc = 0x10FE)) := by decide

/-- A1. -/
theorem test_ldImm : runs 0x6A2A (start id) (fun t => decide (t.readReg 0xA = 0x2A)) := by decide

/-- A2: the carry is lost and VF is left alone. -/
theorem test_addImm : runs 0x7101 (start fun s => withRegs [(1, 0xFF), (0xF, 0x55)] s)
    (fun t => decide (t.readReg 1 = 0) && decide (t.readReg 0xF = 0x55)) := by decide

/-- A5 to A8. -/
theorem test_ldReg : runs 0x8120 (start fun s => withRegs [(2, 0x9C)] s)
    (fun t => decide (t.readReg 1 = 0x9C)) := by decide
theorem test_orReg : runs 0x8121 (start fun s => withRegs [(1, 0xF0), (2, 0x0F)] s)
    (fun t => decide (t.readReg 1 = 0xFF)) := by decide
theorem test_andReg : runs 0x8122 (start fun s => withRegs [(1, 0xF3), (2, 0x3C)] s)
    (fun t => decide (t.readReg 1 = 0x30)) := by decide
theorem test_xorReg : runs 0x8123 (start fun s => withRegs [(1, 0xFF), (2, 0x0F)] s)
    (fun t => decide (t.readReg 1 = 0xF0)) := by decide

/-- A12 and A14 (the flag wins when x is VF). -/
theorem test_addReg : runs 0x8124 (start fun s => withRegs [(1, 0xFF), (2, 0xFF)] s)
    (fun t => decide (t.readReg 1 = 0xFE) && decide (t.readReg 0xF = 1)) := by decide
theorem test_addReg_vf : runs 0x8F24 (start fun s => withRegs [(0xF, 0xFF), (2, 1)] s)
    (fun t => decide (t.readReg 0xF = 1)) := by decide

/-- A16 and A17. -/
theorem test_sub_borrow : runs 0x8125 (start fun s => withRegs [(1, 1), (2, 2)] s)
    (fun t => decide (t.readReg 1 = 0xFF) && decide (t.readReg 0xF = 0)) := by decide
theorem test_sub_equal : runs 0x8125 (start fun s => withRegs [(1, 5), (2, 5)] s)
    (fun t => decide (t.readReg 1 = 0) && decide (t.readReg 0xF = 1)) := by decide

/-- A23 (y ignored) and A24. -/
theorem test_shr : runs 0x8126 (start fun s => withRegs [(1, 4), (2, 0xFF)] s)
    (fun t => decide (t.readReg 1 = 2) && decide (t.readReg 0xF = 0)) := by decide
theorem test_shr_vf : runs 0x8F06 (start fun s => withRegs [(0xF, 3)] s)
    (fun t => decide (t.readReg 0xF = 1)) := by decide

/-- A25 and A26. -/
theorem test_subn : runs 0x8127 (start fun s => withRegs [(1, 2), (2, 1)] s)
      (fun t => decide (t.readReg 1 = 0xFF) && decide (t.readReg 0xF = 0)) ∧
    runs 0x8127 (start fun s => withRegs [(1, 1), (2, 2)] s)
      (fun t => decide (t.readReg 1 = 1) && decide (t.readReg 0xF = 1)) := by decide

/-- A28. -/
theorem test_shl : runs 0x810E (start fun s => withRegs [(1, 0x81)] s)
    (fun t => decide (t.readReg 1 = 2) && decide (t.readReg 0xF = 1)) := by decide

/-- X1. -/
theorem test_ldI : runs 0xA300 (start id) (fun t => decide (t.i = 0x300)) := by decide

/-- X2 and X4. -/
theorem test_addI : runs 0xF21E (start fun s => withRegs [(2, 1)] { s with i := 0xFFF })
    (fun t => decide (t.i = 0x1000) && decide (t.readReg 0xF = 1)) := by decide
theorem test_addI_wraps : runs 0xF21E (start fun s => withRegs [(2, 2)] { s with i := 0xFFFF })
    (fun t => decide (t.i = 1) && decide (t.readReg 0xF = 1)) := by decide

/-- X9. -/
theorem test_ldF : runs 0xF029 (start fun s => withRegs [(0, 0xFF)] s)
    (fun t => decide (t.i = 0x4FB)) := by decide

/-- X10 and X15. -/
theorem test_ldB : runs 0xFA33 (start fun s => withRegs [(0xA, 0x7B)] { s with i := 0x300 })
    (fun t => decide ([0x300, 0x301, 0x302].map t.readByte = [1, 2, 3]) && decide (t.i = 0x300)) := by
  decide
theorem test_ldB_protected : latches 0xF033 (start fun s => { s with i := 0x1FF })
    .protectedWrite 0x1FF := by decide

/-- X16 and X18. -/
theorem test_stRegs : runs 0xF155 (start fun s => withRegs [(0, 0x11), (1, 0x22)] { s with i := 0x300 })
    (fun t => decide ([0x300, 0x301, 0x302].map t.readByte = [0x11, 0x22, 0]) && decide (t.i = 0x302)) := by
  decide
theorem test_stRegs_range : latches 0xF255 (start fun s => { s with i := 0xFFE }) .memRange 0x1000 := by
  decide

/-- M9 (the glyph of 0) and X23. -/
theorem test_ldRegs : runs 0xF465 (start id)
    (fun t => decide ([0, 1, 2, 3, 4].map t.readReg = [0xF0, 0x90, 0x90, 0x90, 0xF0]) &&
      decide (t.i = 5)) := by decide
theorem test_ldRegs_range : latches 0xF065 (start fun s => { s with i := 0x1000 }) .memRange 0x1000 := by
  decide

/-- K1 and K5. -/
theorem test_skp : runs 0xE59E
    (start fun s => withRegs [(5, 0xA)] { s with pc := 0x210, key := s.key.set 0xA true })
    (fun t => decide (t.pc = 0x214)) := by decide
theorem test_skp_range : latches 0xE59E (start fun s => withRegs [(5, 0x10)] { s with pc := 0x210 })
    .keyRange 0x10 := by decide

/-- K3 and K4. -/
theorem test_sknp : runs 0xE5A1 (start fun s => withRegs [(5, 0xA)] { s with pc := 0x210 })
    (fun t => decide (t.pc = 0x214)) := by decide
theorem test_sknp_pressed : runs 0xE5A1
    (start fun s => withRegs [(5, 0xA)] { s with pc := 0x210, key := s.key.set 0xA true })
    (fun t => decide (t.pc = 0x212)) := by decide

/-- K12: read before the tick of the same cycle. -/
theorem test_ldVxDt : runs 0xF107 (start fun s => { s with dt := 5, cycles := 8 })
    (fun t => decide (t.readReg 1 = 5) && decide (t.dt = 4)) := by decide

/-- K6 (first step) and K8. -/
theorem test_ldK_waits : runs 0xF30A (start fun s => { s with pc := 0x220 })
    (fun t => decide (t.pc = 0x220) && decide (t.cycles = 2)) := by decide
theorem test_ldK_least : runs 0xF00A
    (start fun s => { s with key := (s.key.set 9 true).set 3 true })
    (fun t => decide (t.readReg 0 = 3) && decide (t.pc = 0x202)) := by decide

/-- K13. -/
theorem test_ldDt : runs 0xF015 (start fun s => withRegs [(0, 5)] { s with cycles := 16 })
    (fun t => decide (t.dt = 4)) := by decide

/-- K15 and K16. -/
theorem test_ldSt_beeps : runs 0xF218 (start fun s => withRegs [(2, 1)] { s with cycles := 8 })
    (fun t => decide (t.beeps = 1) && decide (t.st = 0)) := by decide
theorem test_ldSt_silent : runs 0xF218 (start fun s => withRegs [(2, 2)] { s with cycles := 8 })
    (fun t => decide (t.beeps = 0) && decide (t.st = 1)) := by decide

/-- A33: any draw gives 0 under kk = 0, and a draw is taken. -/
theorem test_rnd : runs 0xC400 (start id)
    (fun t => decide (t.draws = 1) && decide (t.pc = 0x202)) := by decide

/-- D5: clipped at the right edge. -/
theorem test_drw_clips : runs 0xD011
    (start fun s => withRegs [(0, 62), (1, 31)] (withMem 0x300 [0xC3] { s with i := 0x300 }))
    (fun t => decide (t.fb = BitVec.twoPow 2048 (62 + 64 * 31) ||| BitVec.twoPow 2048 (63 + 64 * 31)) &&
      decide (t.readReg 0xF = 0)) := by decide +kernel

/-- D13: the coordinate is VF, read before the flag is written. -/
theorem test_drw_collides : runs 0xDF11
    (start fun s => withRegs [(0xF, 10)]
      (withMem 0x300 [0x80] { s with i := 0x300, fb := BitVec.twoPow 2048 10 }))
    (fun t => decide (t.fb = 0) && decide (t.readReg 0xF = 1)) := by decide +kernel

/-! ## Machine level -/

/-- F1 and M2. -/
theorem test_invalid_opcode : latches 0x8018 (start id) .invalidOpcode 0x8018 := by decide

def nextOf (s : State) : Option State :=
  match step s with
  | .next t => some t
  | .fault _ => none
  | .refused _ => none

theorem test_fetch_range :
    (nextOf (start fun s => { s with pc := 0xFFF })).map (·.fault) =
      some (some { code := .fetchRange, pc := 0xFFF, opcode := none, info := 0xFFF }) := by decide

/-- H5. -/
theorem test_paused : nextOf (start State.pauseToggle) = some (start State.pauseToggle) := by decide +kernel

/-- M6: a program of 3585 bytes is refused and memory is unchanged. -/
theorem test_load_error :
    (match hostAct (.load (List.replicate 3585 1)) Session.powerOn with
      | .next (h, r) => decide (h.block = State.reset) && decide (r = .loadError)
      | .fault _ => false
      | .refused _ => false) = true := by decide +kernel

/-! ## Witnesses: for each statement of the certificate that has hypotheses, concrete states and operands that
meet them, one per clause, at the boundaries of its ranges. -/

/-- Reset, made different by `f`, about to run a placed word. -/
def ready (w : Word) (f : State → State := id) : State := (f State.reset).withFetchWord 16 w.toNat

theorem ready_willRun {w : Word} {i : Instr} (f : State → State) (hm : (f State.reset).mem.wf = true)
    (hd : decode w = .ok i) : (ready w f).willRun i := withFetchWord_willRun hm hd

/-- A latched record. -/
def someFault : FaultRecord := { code := .memRange, pc := 0x200, opcode := some 0xD001, info := 0x1000 }

theorem witness_DecodeOfEncode : [Instr.cls, .jp 0xFFF, .drw 0 0xF 0, .drw 0xF 0 15].all Instr.wf := by decide

theorem witness_EncodeOfDecode : decode 0x8FFE = .ok (.shl 0xF 0xF) ∧ decode 0xD00F = .ok (.drw 0 0 15) :=
  ⟨rfl, rfl⟩

theorem witness_StepRunsDecodedInstruction :
    ((ready 0x00E0).willRun .cls ∧ ∃ t, exec .cls (ready 0x00E0) = .next t) ∧
    (let s := ready 0x00EE fun s => { s with sp := 17 }
     s.willRun .ret ∧ exec .ret s = .fault .stackPointerIllegal) :=
  ⟨⟨ready_willRun id rfl rfl, _, rfl⟩, ready_willRun _ rfl rfl, rfl⟩

theorem witness_CycleEndTicksTimers :
    ({ State.reset with fault := some someFault } : State).fault ≠ none ∧
    (let s : State := { State.reset with st := 1, cycles := 8 }
     s.fault = none ∧ s.cycles % 8 = 0 ∧ s.st.toNat = 1) ∧
    (let s : State := { State.reset with cycles := 7 }
     s.fault = none ∧ s.cycles % 8 ≠ 0) := by decide

theorem witness_FetchAndDecodeFaultsLatch :
    (let s : State := { State.reset with pc := 0xFFF }
     s.run = .running ∧ s.fault = none ∧ 0xFFE < s.pc.toNat) ∧
    (let s : State := { State.reset with pc := 0xFFE }
     s.run = .running ∧ s.fault = none ∧ s.pc.toNat ≤ 0xFFE ∧
      decode s.wordAtPc = .error (.invalidOpcode s.wordAtPc)) :=
  ⟨⟨rfl, rfl, by decide⟩, rfl, rfl, by decide, rfl⟩

/-- A faulted and paused block. -/
def stopped : Session :=
  { Session.powerOn with block := { State.reset with fault := some someFault, run := .paused } }

theorem witness_FaultedStateLastsUntilReset :
    ∃ h' r, hostAct .pauseToggle stopped = .next (h', r) ∧ stopped.block.fault ≠ none ∧
      HostAction.pauseToggle ≠ .reset := ⟨_, _, rfl, by decide, by decide⟩

theorem witness_PausedStateLastsUntilHostLeavesIt :
    stopped.block.run = .paused ∧
    (∃ h' r, hostAct .pauseToggle stopped = .next (h', r) ∧ h'.block.run = .running) ∧
    ∃ h' r, hostAct .reset stopped = .next (h', r) ∧ h'.block.run = .running :=
  ⟨rfl, ⟨_, _, rfl, rfl⟩, _, _, rfl, rfl⟩

theorem witness_FaultingCycleChangesOnlyLatch :
    (let s : State := { State.reset with pc := 0xFFF }
     s.fault = none ∧ ∃ t f, step s = .next t ∧ t.fault = some f ∧ f.code = .fetchRange) ∧
    (let s := ready 0x00EE
     s.fault = none ∧ ∃ t f, step s = .next t ∧ t.fault = some f ∧ f.code = .stackUnderflow) :=
  ⟨⟨rfl, _, _, rfl, rfl, rfl⟩, rfl, _, _, rfl, rfl, rfl⟩

/-- From a state with an empty latch, the instruction latches this cause. -/
def causes (i : Instr) (s : State) (c : FaultCode) : Bool :=
  match exec i s with
  | .next t => decide (s.fault = none) && decide (t.fault.map (·.code) = some c)
  | .fault _ => false
  | .refused _ => false

/-- One per cause of the statement, and one per stored or read form. -/
theorem witness_ExecutionFaultCauses :
    causes (.drw 0 0 1) { State.reset with i := 0x1000 } .memRange ∧
    causes (.ldB 0) { State.reset with i := 0xFFE } .memRange ∧
    causes (.stRegs 0xF) { State.reset with i := 0xFF1 } .memRange ∧
    causes (.ldRegs 0) { State.reset with i := 0xFFFF } .memRange ∧
    causes (.ldB 0) { State.reset with i := 0x1FF } .protectedWrite ∧
    causes (.stRegs 0) State.reset .protectedWrite ∧
    causes (.call 0) { State.reset with sp := 16 } .stackOverflow ∧
    causes .ret State.reset .stackUnderflow ∧
    causes (.skp 0) (withRegs [(0, 0x10)] State.reset) .keyRange ∧
    causes (.sknp 0) (withRegs [(0, 0xFF)] State.reset) .keyRange := by decide

/-- An instruction that answers a next state without a fault from a state with an empty latch. -/
def completes (i : Instr) (s : State) : Bool :=
  match exec i s with
  | .next t => decide (s.fault = none) && decide (t.fault = none)
  | .fault _ => false
  | .refused _ => false

/-- The clauses with premises of their own: a fault, RET at both ends of the stack, the keypad forms. -/
theorem witness_PcAdvanceContract :
    causes .ret State.reset .stackUnderflow ∧
    completes .ret { State.reset with sp := 1 } ∧ completes .ret { State.reset with sp := 16 } ∧
    completes (.skp 0) State.reset ∧ completes (.sknp 0) (withRegs [(0, 0xF)] State.reset) ∧
    completes (.ldK 0) State.reset ∧
    completes (.ldK 0) { State.reset with key := State.reset.key.set 15 true } ∧
    completes (.jpV0 0xFFF) (withRegs [(0, 0xFF)] State.reset) := by decide

/-- A state of the invariant that is not reset: a full stack, a latched fault, a stored byte. -/
theorem witness_StepKeepsInv :
    let s : State := { State.reset with
      sp := 16, stack := Vector.replicate 16 0xFFE, fault := some someFault, mem := [(0x200, 1)] }
    s.Inv ∧ ∃ t, step s = .next t :=
  ⟨⟨by decide, by decide, by decide, by decide, by rintro f ⟨⟩; rfl⟩, _, rfl⟩

theorem witness_StepAlwaysAnswers : (ready 0x00EE fun s => { s with sp := 1 }).Inv :=
  ⟨by decide, by decide, by decide, by decide, by rintro f ⟨⟩⟩

/-- A store at the bottom of the program region, beside the last reserved byte. -/
theorem witness_ReservedRegionNeverAltered :
    (∃ t, step (ready 0xF033 fun s => { s with i := 0x200 }) = .next t) ∧ 0x1FF < 0x200 :=
  ⟨⟨_, rfl⟩, by decide⟩

theorem witness_FramebufferChangedOnlyByDisplay :
    runs 0x00E0 { State.reset with fb := 1 } (fun t => decide (t.fb ≠ 1)) ∧
    runs 0xD001 State.reset (fun t => decide (t.fb ≠ State.reset.fb)) := by decide +kernel

theorem witness_StackChangedOnlyByCallAndReturn :
    runs 0x2ABC State.reset (fun t => decide (t.sp ≠ 0) && decide (t.stack ≠ State.reset.stack)) ∧
    runs 0x00EE { State.reset with sp := 16 } (fun t => decide (t.sp ≠ 16)) := by decide

theorem witness_StepLeavesKeypadAndRunState : ∃ t, step (ready 0xF00A) = .next t := ⟨_, rfl⟩

theorem witness_FlagRegisterWriters :
    (∃ t, exec (.addReg 1 1) (withRegs [(1, 0x80)] State.reset) = .next t ∧
      t.readReg 0xF ≠ (withRegs [(1, 0x80)] State.reset).readReg 0xF) ∧
    ∃ t, exec (.ldImm 0xF 9) State.reset = .next t ∧ t.readReg 0xF ≠ State.reset.readReg 0xF :=
  ⟨⟨_, rfl, by decide⟩, _, rfl, by decide⟩

theorem witness_FetchSeesStoredWord :
    [0x200, 0xFF0].all (fun a =>
      let s : State := { State.reset with i := a, v := Vector.replicate 16 0xA5 }
      s.mem.wf && decide (0x200 ≤ s.i.toNat) && decide (s.i.toNat + (15 : Reg).val < 0x1000)) ∧
    (14 : Reg).val < (15 : Reg).val ∧ (0 : Reg).val < (15 : Reg).val := by decide

theorem witness_SpinningRunsForever : (ready 0x1200).spinning :=
  ⟨0x200, ready_willRun id rfl rfl, rfl⟩

/-- No rows with I past memory; 15 rows that end at 0xFFF; a lit pixel and dark pixels under the sprite. -/
theorem witness_DrwDrawsSprite :
    (0 < 16 ∧ 15 < 16 ∧ 0xFF1 + 15 ≤ 0x1000) ∧
    (let s : State := { State.reset with fb := 1 }
     spriteCovers s 0 0 1 0 0 ∧ s.fb.read 0 0 = true) ∧
    (spriteCovers State.reset 0 0 1 0 0 ∧ ∀ px py, State.reset.fb.read px py = false) :=
  ⟨by decide, ⟨⟨by decide, by decide, by decide⟩, by decide +kernel⟩,
    ⟨by decide, by decide, by decide⟩, fun px py => Framebuffer.read_clear px py⟩

/-- A dark pixel under the sprite; every pixel under it lit (one row, 0xF0, on a lit corner). -/
theorem witness_DrwTwiceRestoresScreen :
    (1 : Reg) ≠ 0xF ∧ (spriteCovers State.reset 0 0 1 0 0 ∧ State.reset.fb.read 0 0 = false) ∧
    (let s : State := { State.reset with fb := 0xF }
     ∀ px, px < 64 → ∀ py, py < 32 → spriteCovers s 0 0 1 px py → s.fb.read px py = true) := by
  refine ⟨by decide, ⟨⟨by decide, by decide, by decide⟩, Framebuffer.read_clear 0 0⟩, ?_⟩
  rintro s px - py - ⟨⟨-, hx⟩, ⟨-, hy⟩, hb⟩
  obtain rfl : py = 0 := by omega
  have h8 : ∀ p, p < 8 → (0xF0 : Byte).getLsbD (7 - (p - 0)) = true → p < 4 := by decide
  have h4 : ∀ p, p < 4 → Framebuffer.read 0xF p 0 = true := by decide +kernel
  have hrow : s.readByte (s.i.toNat + (0 - 0)) = 0xF0 := by decide
  rw [hrow] at hb
  exact h4 px (h8 px (by omega) hb)

theorem witness_FramebufferControllerContract :
    (63 < 64 ∧ 31 < 32) ∧ ¬ (64 < 64 ∧ 31 < 32) ∧ ¬ (63 < 64 ∧ 32 < 32) ∧ 2047 < 2048 := by decide

theorem witness_stack_bounds :
    (1 : Word).toNat = (0 : Fin 16).val + 1 ∧ (16 : Word).toNat = (15 : Fin 16).val + 1 ∧
    (0 : Word).toNat = (0 : Fin 16).val ∧ (15 : Word).toNat = (15 : Fin 16).val ∧
    16 ≤ (16 : Word).toNat ∧ 16 < (17 : Word).toNat := by decide

theorem witness_RegisterSkips :
    (0x5120 : Word).toNat = 0x5000 + 256 * (1 : Reg).val + 16 * (2 : Reg).val + 0 ∧
    (0x9FFF : Word).toNat = 0x9000 + 256 * (0xF : Reg).val + 16 * (0xF : Reg).val + 15 := by decide

/-- The first and last I of each transfer, and the last before and first after its range. -/
theorem witness_transfers :
    State.reset.mem.wf ∧
    (0x200 ≤ (0x200 : Word).toNat ∧ (0xFFD : Word).toNat + 2 ≤ 0xFFF) ∧
    ((0xFF0 : Word).toNat + (15 : Reg).val ≤ 0xFFF ∧ (0 : Word).toNat + (0 : Reg).val ≤ 0xFFF) ∧
    ((0x1FF : Word).toNat < 0x200 ∧ 0xFFF < (0xFFE : Word).toNat + 2) ∧
    (0xFFF < (0x1000 : Word).toNat + (0 : Reg).val ∧ 0xFFF < (0xFF1 : Word).toNat + (15 : Reg).val) ∧
    (1 ≤ 1 ∧ 0xFFF < (0x1000 : Word).toNat + 1 - 1 ∧ 0xFFF < (0xFF2 : Word).toNat + 15 - 1) := by decide

theorem witness_keys :
    ((withRegs [(0, 0xF)] State.reset).readReg 0).toNat = (0xF : KeyCode).val ∧
    (State.reset.readReg 0).toNat = (0 : KeyCode).val ∧
    0xF < ((withRegs [(0, 0x10)] State.reset).readReg 0).toNat := by decide

theorem witness_LdKTakesLeastKeyOrWaits :
    (let s : State := { State.reset with key := (State.reset.key.set 15 true).set 3 true }
     s.key[(3 : KeyCode)] = true ∧ ∀ j : KeyCode, j < 3 → s.key[j] = false) ∧
    ∀ k : KeyCode, State.reset.key[k] = false := by decide

theorem witness_KeyWaitRepeatsForever :
    (ready 0xF00A).willRun (.ldK 0) ∧ ∀ j : KeyCode, (ready 0xF00A).key[j] = false :=
  ⟨ready_willRun id rfl rfl, by decide⟩

theorem witness_timers :
    (ready 0xF007).willRun (.ldVxDt 0) ∧
    ((ready 0xF015).willRun (.ldDt 0) ∧ (ready 0xF015).cycles % 8 = 0) ∧
    (ready 0xF018).willRun (.ldSt 0) ∧ (ready 0xF018).cycles % 8 = 0 :=
  ⟨ready_willRun id rfl rfl, ⟨ready_willRun id rfl rfl, rfl⟩, ready_willRun id rfl rfl, rfl⟩

theorem witness_LoadCopiesProgram :
    (Session.powerOn.mayLoad = true ∧ (List.replicate 3584 (1 : Byte)).length ≤ 3584 ∧
      Session.powerOn.block.mem.wf = true) ∧
    3584 < (List.replicate 3585 (1 : Byte)).length ∧
    ∃ h' r, hostAct .step Session.powerOn = .next (h', r) ∧ h'.mayLoad = false :=
  ⟨⟨rfl, by rw [List.length_replicate], rfl⟩, by rw [List.length_replicate]; decide, _, _, rfl, rfl⟩

theorem longLoad_answers (b : List Byte) (hb : 3584 < b.length) :
    ∃ h', hostAct (.load b) Session.powerOn = .next (h', .loadError) := by
  refine ⟨{ Session.powerOn with loadFailed := true }, ?_⟩
  show Session.load _ _ = _
  unfold Session.load
  rw [if_pos (show Session.powerOn.mayLoad = true from rfl),
    if_pos (show b.length > Config.maxProgram from hb)]

/-- Load answered with each report; Step under its three premises: answered with a Beep, stopped, refused. -/
theorem witness_HostActionsWriteOnlyTheirOwn :
    (∃ h', hostAct (.load [0x12, 0x00]) Session.powerOn = .next (h', .done)) ∧
    (∃ h', hostAct (.load (List.replicate 3585 1)) Session.powerOn = .next (h', .loadError)) ∧
    (let h : Session := { Session.powerOn with block := ready 0xF00A fun s => { s with st := 1 } }
     h.loadFailed = false ∧ ∃ s, step h.block = .next s ∧ s.beeps = 1) ∧
    (let h : Session := { Session.powerOn with block := ready 0x00EE fun s => { s with sp := 17 } }
     h.loadFailed = false ∧ step h.block = .fault .stackPointerIllegal) ∧
    ({ Session.powerOn with loadFailed := true } : Session).loadFailed = true :=
  ⟨⟨_, rfl⟩, longLoad_answers _ (by rw [List.length_replicate]; decide),
    ⟨rfl, _, rfl, rfl⟩, ⟨rfl, rfl⟩, rfl⟩

end Sys2Proof.Tests
end

section
/-! Control flow (41_control_flow.md): what moving PC leaves unchanged, the jump to nnn and the skips with an
immediate. -/

namespace Sys2Proof.Machine

/-! Words and operands. -/

/-- The word of an XK format as the pattern's base, x and kk. -/
theorem formatXK_toNat_base (op : BitVec 4) (x : Reg) (kk : Byte) :
    (formatXK op x kk).toNat = 0x1000 * op.toNat + 256 * x.val + kk.toNat := by
  rw [formatXK_toNat, Nat.mul_comm op.toNat, Nat.mul_comm x.val]

theorem addrOperand_toNat (nnn : Addr12) : (addrOperand nnn).toNat = nnn.toNat :=
  BitVec.toNat_setWidth_of_le (by decide)

/-! The move of PC. -/

/-- Moving PC writes no other component. -/
theorem onlyChanges_setPc (s : State) (w : Word) : onlyChanges [.pc] s (s.setPc w) := by
  intro c hc
  cases c with
  | pc => exact absurd List.mem_cons_self hc
  | mem => exact readByte_congr (setPc_mem s w)
  | _ => rfl

/-- The skips' one rule: the Boolean that `skipIf` takes is read as the proposition the spec tests. -/
theorem skipIf_pc_and_frame {s : State} {c : Bool} {p : Prop} [Decidable p] (h : c = true ↔ p) :
    (s.skipIf c).pc = (if p then s.pc + 4 else s.pc + 2) ∧ onlyChanges [.pc] s (s.skipIf c) :=
  ⟨(skipIf_pc s c).trans (if_congr h rfl rfl), onlyChanges_setPc s _⟩

/-! The instructions. -/

theorem exec_jp (nnn : Addr12) (s : State) : exec (.jp nnn) s = .next (s.setPc (addrOperand nnn)) := rfl

theorem exec_seImm (x : Reg) (kk : Byte) (s : State) :
    exec (.seImm x kk) s = .next (s.skipIf (s.readReg x == kk)) := rfl

theorem exec_sneImm (x : Reg) (kk : Byte) (s : State) :
    exec (.sneImm x kk) s = .next (s.skipIf (s.readReg x != kk)) := rfl

/-- Settles O30: the one update is `setPc`, to the zero-extended literal. -/
theorem jpSetsPc : Obligations.JpSetsPc := by
  intro nnn s
  have hword : (encode (.jp nnn)).toNat = 0x1000 + nnn.toNat := formatA_toNat 0x1 nnn
  have hpc : (s.setPc (addrOperand nnn)).pc.toNat = nnn.toNat := by
    rw [setPc_pc, addrOperand_toNat]
  exact ⟨hword, _, exec_jp nnn s, hpc, onlyChanges_setPc s _⟩

/-- Settles O32: both instructions are one `skipIf`, on the test and on its negation. -/
theorem immediateSkips : Obligations.ImmediateSkips := by
  intro x kk s
  have hse : (encode (.seImm x kk)).toNat = 0x3000 + 256 * x.val + kk.toNat :=
    formatXK_toNat_base 0x3 x kk
  have hsne : (encode (.sneImm x kk)).toNat = 0x4000 + 256 * x.val + kk.toNat :=
    formatXK_toNat_base 0x4 x kk
  exact ⟨hse, hsne, ⟨_, exec_seImm x kk s, skipIf_pc_and_frame beq_iff_eq⟩,
    ⟨_, exec_sneImm x kk s, skipIf_pc_and_frame bne_iff_ne⟩⟩

end Sys2Proof.Machine
end

section
/-! Register loads (42_alu.md): the word of an XYN format, what writing one register leaves unchanged, and the
load of an immediate and of another register. -/

namespace Sys2Proof.Machine

/-! Words. -/

/-- The word of an XYN format as the pattern's base, x, y and n. -/
theorem formatXYN_toNat_base (op : BitVec 4) (x y : Reg) (n : BitVec 4) :
    (formatXYN op x y n).toNat = 0x1000 * op.toNat + 256 * x.val + 16 * y.val + n.toNat := by
  rw [formatXYN_toNat, Nat.mul_comm op.toNat, Nat.mul_comm x.val, Nat.mul_comm y.val]

/-! The write of one register. -/

theorem onlyChanges_mono {cs cs' : List Component} {s t : State} (hsub : cs ⊆ cs')
    (h : onlyChanges cs s t) : onlyChanges cs' s t :=
  fun c hc => h c fun hmem => hc (hsub hmem)

/-- Writing a register writes no component but the register file. -/
theorem onlyChanges_writeReg (s : State) (x : Reg) (b : Byte) : onlyChanges [.v] s (s.writeReg x b) := by
  intro c hc
  cases c with
  | v => exact absurd List.mem_cons_self hc
  | mem => exact readByte_congr (writeReg_mem s x b)
  | _ => rfl

theorem onlyWritesRegs_writeReg (s : State) (x : Reg) (b : Byte) :
    onlyWritesRegs [x] s (s.writeReg x b) :=
  fun _ hr => readReg_writeReg_other s b (List.ne_of_not_mem_cons hr)

/-- The one rule of the instructions that end in `V[x] <- b; PC <- PC + 2`: what they write and their frame. -/
theorem writeReg_nextInstr_effect (s : State) (x : Reg) (b : Byte) :
    (s.writeReg x b).nextInstr.readReg x = b ∧ onlyWritesRegs [x] s (s.writeReg x b).nextInstr ∧
      (s.writeReg x b).nextInstr.pc = s.pc + 2 ∧
      onlyChanges [.v, .pc] s (s.writeReg x b).nextInstr := by
  have hreg : (s.writeReg x b).nextInstr.readReg x = b := by
    rw [readReg_nextInstr, readReg_writeReg_same]
  have hpc : (s.writeReg x b).nextInstr.pc = s.pc + 2 := by
    rw [nextInstr_pc, writeReg_pc]
  have hwrite : onlyChanges [.v, .pc] s (s.writeReg x b) :=
    onlyChanges_mono (by simp) (onlyChanges_writeReg s x b)
  have hadvance : onlyChanges [.v, .pc] (s.writeReg x b) (s.writeReg x b).nextInstr :=
    onlyChanges_mono (by simp) (onlyChanges_setPc _ _)
  exact ⟨hreg, onlyWritesRegs_writeReg s x b, hpc, onlyChanges_trans hwrite hadvance⟩

/-! The instructions. -/

theorem exec_ldImm (x : Reg) (kk : Byte) (s : State) :
    exec (.ldImm x kk) s = .next (s.writeReg x kk).nextInstr := rfl

theorem exec_ldReg (x y : Reg) (s : State) :
    exec (.ldReg x y) s = .next (s.writeReg x (s.readReg y)).nextInstr := rfl

/-- Settles O34: the immediate is written to Vx and PC moves on. -/
theorem ldImmLoadsImmediate : Obligations.LdImmLoadsImmediate := by
  intro x kk s
  have hword : (encode (.ldImm x kk)).toNat = 0x6000 + 256 * x.val + kk.toNat :=
    formatXK_toNat_base 0x6 x kk
  exact ⟨hword, _, exec_ldImm x kk s, writeReg_nextInstr_effect s x kk⟩

/-- Settles O36: the value Vy had before the write goes to Vx, so x = y needs no case of its own. -/
theorem ldRegCopies : Obligations.LdRegCopies := by
  intro x y s
  have hword : (encode (.ldReg x y)).toNat = 0x8000 + 256 * x.val + 16 * y.val :=
    formatXYN_toNat_base 0x8 x y 0x0
  exact ⟨hword, _, exec_ldReg x y s, writeReg_nextInstr_effect s x (s.readReg y)⟩

end Sys2Proof.Machine
end

section
/-! The index register (43_index_memory.md): what setting I leaves unchanged, and the load of a literal address. -/

namespace Sys2Proof.Machine

/-! The write of I. -/

/-- Setting I writes no other component. -/
theorem onlyChanges_setI (s : State) (w : Word) : onlyChanges [.i] s (s.setI w) := by
  intro c hc
  cases c with
  | i => exact absurd List.mem_cons_self hc
  | mem => exact readByte_congr (setI_mem s w)
  | _ => rfl

/-- The frame of the instructions that end in `I <- w; PC <- PC + 2`. -/
theorem onlyChanges_setI_nextInstr (s : State) (w : Word) :
    onlyChanges [.i, .pc] s (s.setI w).nextInstr :=
  onlyChanges_trans (onlyChanges_mono (by simp) (onlyChanges_setI s w))
    (onlyChanges_mono (by simp) (onlyChanges_setPc _ _))

/-! The instruction. -/

theorem exec_ldI (nnn : Addr12) (s : State) :
    exec (.ldI nnn) s = .next (s.setI (addrOperand nnn)).nextInstr := rfl

/-- Settles O42: I is set to the zero-extended literal, no bit of which is lost, and PC moves on. -/
theorem ldILoadsAddress : Obligations.LdILoadsAddress := by
  intro nnn s
  have hword : (encode (.ldI nnn)).toNat = 0xA000 + nnn.toNat := formatA_toNat 0xA nnn
  have hi : (s.setI (addrOperand nnn)).nextInstr.i.toNat = nnn.toNat := by
    rw [nextInstr_i, setI_i, addrOperand_toNat]
  have hpc : (s.setI (addrOperand nnn)).nextInstr.pc = s.pc + 2 := by
    rw [nextInstr_pc, setI_pc]
  exact ⟨hword, _, exec_ldI nnn s, hi, hpc, onlyChanges_setI_nextInstr s _⟩

end Sys2Proof.Machine
end

section
/-! The timers (44_keypad_timers.md): what a whole step makes of an instruction's outcome, and the read of the
delay timer. -/

namespace Sys2Proof.Machine

/-! The step around an instruction. -/

/-- An instruction that answers a next state has its cycle ended on that state. -/
theorem step_willRun_next {s t : State} {i : Instr} (h : s.willRun i) (he : exec i s = .next t) :
    step s = .next t.endCycle := by
  rw [step_willRun h, he]

/-- The tick and the count at a cycle's end touch no register. -/
@[simp] theorem readReg_endCycle (s : State) (x : Reg) : s.endCycle.readReg x = s.readReg x :=
  readReg_congr (endCycle_v s) x

/-! The instruction. -/

theorem exec_ldVxDt (x : Reg) (s : State) :
    exec (.ldVxDt x) s = .next (s.writeReg x s.dt).nextInstr := rfl

/-- Settles O54: DT is written to Vx before the cycle ends, and the end of a cycle, where DT is decremented,
leaves Vx alone. -/
theorem ldVxDtReadsTimer : Obligations.LdVxDtReadsTimer := by
  intro x s
  have hword : (encode (.ldVxDt x)).toNat = 0xF007 + 256 * x.val := by
    have h : (encode (.ldVxDt x)).toNat = 0xF000 + 256 * x.val + 0x07 := formatXK_toNat_base 0xF x 0x07
    omega
  obtain ⟨hread, hframe⟩ := writeReg_nextInstr_effect s x s.dt
  have hstep (hrun : s.willRun (.ldVxDt x)) : ∃ t, step s = .next t ∧ t.readReg x = s.dt :=
    ⟨_, step_willRun_next hrun (exec_ldVxDt x s), (readReg_endCycle _ x).trans hread⟩
  exact ⟨hword, ⟨_, exec_ldVxDt x s, hread, hframe⟩, hstep⟩

end Sys2Proof.Machine
end

section
/-! The run state (60_exceptions.md): what a host action leaves of Paused. -/

namespace Sys2Proof.Machine

/-! The two actions that may be refused. -/

/-- A Load that is answered leaves the run state alone, its program too long or not. -/
theorem load_keeps_run {h h' : Session} {b : List Byte} {r : Report} (hload : h.load b = .next (h', r)) :
    h'.block.run = h.block.run := by
  unfold Session.load at hload
  split at hload
  · split at hload
    · cases hload; rfl
    · cases hload; rfl
  · cases hload

/-- A Step action that is answered puts the block where the machine's step does. -/
theorem sessionStep_next {h h' : Session} {r : Report} (hstep : h.step = .next (h', r)) :
    step h.block = .next h'.block := by
  unfold Session.step at hstep
  split at hstep
  · cases hstep
  · split at hstep
    · next s hs => cases hstep; exact hs
    · cases hstep
    · cases hstep

/-! Paused. -/

theorem step_paused {s : State} (hp : s.run = .paused) : step s = .next s :=
  step_halted (halted_iff.2 (.inr hp))

/-- In Paused the Step action leaves the whole block alone. -/
theorem sessionStep_paused {h h' : Session} {r : Report} (hp : h.block.run = .paused)
    (hstep : h.step = .next (h', r)) : h'.block = h.block :=
  Host.Outcome.next.inj ((sessionStep_next hstep).symm.trans (step_paused hp))

/-- A host action other than PauseToggle and Reset keeps Paused. -/
theorem hostAct_keeps_paused {a : HostAction} {h h' : Session} {r : Report}
    (hact : hostAct a h = .next (h', r)) (hp : h.block.run = .paused)
    (htoggle : a ≠ .pauseToggle) (hreset : a ≠ .reset) : h'.block.run = .paused := by
  cases a with
  | reset => exact absurd rfl hreset
  | pauseToggle => exact absurd rfl htoggle
  | load b => exact (load_keeps_run hact).trans hp
  | step => exact (congrArg State.run (sessionStep_paused hp hact)).trans hp
  | keyDown | keyUp | hasNewFrame | readPixel | renderFrame | ackFrame | readFault =>
    cases hact; exact hp

/-- Settles O9: a paused block is halted, and by `hostAct_keeps_paused` it stays paused under every action
but the two. -/
theorem pausedStateLastsUntilHostLeavesIt : Obligations.PausedStateLastsUntilHostLeavesIt := by
  refine ⟨fun s => step_paused, fun a h h' r hact hp hrunning => ?_⟩
  by_contra hother
  obtain ⟨htoggle, hreset⟩ := not_or.1 hother
  have hpaused : h'.block.run = .paused := hostAct_keeps_paused hact hp htoggle hreset
  rw [hpaused] at hrunning
  cases hrunning

end Sys2Proof.Machine
end

section
/-! Encoding (30_encoding.md): the decoder on the words of each format, the words it rejects, and that the two
directions are inverse. -/

namespace Sys2Proof

/-! A word is its format, once its top nibble is known. -/

theorem opField_eq {w : Word} {op : BitVec 4} (h : (opField w).toNat = op.toNat) : opField w = op :=
  BitVec.eq_of_toNat_eq h

theorem formatA_of_op {w : Word} {op : BitVec 4} (h : (opField w).toNat = op.toNat) :
    formatA op (nnnField w) = w := by
  rw [← opField_eq h, formatA_fields]

theorem formatXK_of_op {w : Word} {op : BitVec 4} (h : (opField w).toNat = op.toNat) :
    formatXK op (xField w) (kkField w) = w := by
  rw [← opField_eq h, formatXK_fields]

/-- Format X: the low byte is known too. -/
theorem formatXK_of_op_kk {w : Word} {op : BitVec 4} {kk : Byte} (h : (opField w).toNat = op.toNat)
    (hkk : (kkField w).toNat = kk.toNat) : formatXK op (xField w) kk = w := by
  rw [← BitVec.eq_of_toNat_eq hkk, formatXK_of_op h]

/-- Formats XY and XYN: the low nibble is known too. -/
theorem formatXYN_of_op_n {w : Word} {op n : BitVec 4} (h : (opField w).toNat = op.toNat)
    (hn : nField w = n.toNat) : formatXYN op (xField w) (yField w) n = w := by
  have hn' : BitVec.ofNat 4 (nField w) = n := by rw [hn, BitVec.ofNat_toNat, BitVec.setWidth_eq]
  rw [← opField_eq h, ← hn', formatXYN_fields]

/-! Decoding what was encoded. -/

/-- Settles O1: the decoder reads back the top nibble, the low digits it dispatches on and every operand of the
format; only DRW's row count is not bounded by its type. -/
theorem decodeOfEncode : Obligations.DecodeOfEncode := by
  intro i hwf
  cases i with
  | cls | ret => rfl
  | jp | call | ldI | jpV0 => simp [encode, decode]
  | seImm | sneImm | ldImm | addImm | rnd => simp [encode, decode]
  | seReg | sneReg => simp [encode, decode]
  | ldReg | orReg | andReg | xorReg | addReg | sub | shr | subn | shl =>
    simp [encode, decode, decode8]
  | skp | sknp => simp [encode, decode, decodeE]
  | ldVxDt | ldK | ldDt | ldSt | addI | ldF | ldB | stRegs | ldRegs =>
    simp [encode, decode, decodeF]
  | drw x y n =>
    have hn : n < 16 := of_decide_eq_true hwf
    simp [encode, decode, Nat.mod_eq_of_lt hn]

/-! Encoding what was decoded. -/

theorem encode_of_decode0 {w : Word} {i : Instr} (h : decode0 w = .ok i) :
    encode i = w ∧ i.wf = true := by
  unfold decode0 at h
  split at h
  · next hw => cases h; exact ⟨hw.symm, rfl⟩
  · split at h
    · next hw => cases h; exact ⟨hw.symm, rfl⟩
    · cases h

theorem encode_of_decode8 {w : Word} {i : Instr} (hop : (opField w).toNat = 8) (h : decode8 w = .ok i) :
    encode i = w ∧ i.wf = true := by
  unfold decode8 at h
  split at h <;> cases h <;> exact ⟨formatXYN_of_op_n hop (by assumption), rfl⟩

theorem encode_of_decodeE {w : Word} {i : Instr} (hop : (opField w).toNat = 14) (h : decodeE w = .ok i) :
    encode i = w ∧ i.wf = true := by
  unfold decodeE at h
  split at h <;> cases h <;> exact ⟨formatXK_of_op_kk hop (by assumption), rfl⟩

theorem encode_of_decodeF {w : Word} {i : Instr} (hop : (opField w).toNat = 15) (h : decodeF w = .ok i) :
    encode i = w ∧ i.wf = true := by
  unfold decodeF at h
  split at h <;> cases h <;> exact ⟨formatXK_of_op_kk hop (by assumption), rfl⟩

/-- Settles O2: the digits that the decoder's branch has matched are the literal digits of the instruction's
format. -/
theorem encodeOfDecode : Obligations.EncodeOfDecode := by
  intro w i h
  unfold decode at h
  split at h
  case h_1 => exact encode_of_decode0 h
  case h_9 hop => exact encode_of_decode8 hop h
  case h_15 hop => exact encode_of_decodeE hop h
  case h_16 hop => exact encode_of_decodeF hop h
  case h_2 hop | h_3 hop | h_11 hop | h_12 hop => cases h; exact ⟨formatA_of_op hop, rfl⟩
  case h_4 hop | h_5 hop | h_7 hop | h_8 hop | h_13 hop => cases h; exact ⟨formatXK_of_op hop, rfl⟩
  case h_6 hop | h_10 hop =>
    split at h
    · next hn => cases h; exact ⟨formatXYN_of_op_n hop hn, rfl⟩
    · cases h
  case h_14 hop =>
    cases h
    have hn : nField w = (BitVec.ofNat 4 (nField w)).toNat := by
      rw [BitVec.toNat_ofNat, Nat.mod_eq_of_lt (nField_lt w)]
    exact ⟨formatXYN_of_op_n hop hn, decide_eq_true (nField_lt w)⟩
  case h_17 => cases h

/-! The rejected words. -/

theorem decode0_invalid_iff (w : Word) :
    decode0 w = .error (.invalidOpcode w) ↔ w.toNat ≠ 0x00E0 ∧ w.toNat ≠ 0x00EE := by
  have hcls : w = 0x00E0 ↔ w.toNat = 0x00E0 := BitVec.toNat_inj.symm
  have hret : w = 0x00EE ↔ w.toNat = 0x00EE := BitVec.toNat_inj.symm
  unfold decode0
  rw [if_congr hcls rfl (if_congr hret rfl rfl)]
  split_ifs with h1 h2 <;> simp [*]

theorem decode8_invalid_iff (w : Word) : decode8 w = .error (.invalidOpcode w) ↔
    w.toNat % 16 ∈ [0x8, 0x9, 0xA, 0xB, 0xC, 0xD, 0xF] := by
  have hlt := nField_lt w
  rw [← nField_eq]
  unfold decode8
  split
  case h_10 => simp_all; omega
  all_goals simp [*]

theorem decodeE_invalid_iff (w : Word) :
    decodeE w = .error (.invalidOpcode w) ↔ w.toNat % 256 ∉ [0x9E, 0xA1] := by
  rw [← kkField_toNat]
  unfold decodeE
  split <;> simp_all

theorem decodeF_invalid_iff (w : Word) : decodeF w = .error (.invalidOpcode w) ↔
    w.toNat % 256 ∉ [0x07, 0x0A, 0x15, 0x18, 0x1E, 0x29, 0x33, 0x55, 0x65] := by
  rw [← kkField_toNat]
  unfold decodeF
  split <;> simp_all

/-- Settles O3: the top nibble leaves one range of the invalid space, which the branch's own test describes. -/
theorem invalidSpaceOfDecode : Obligations.InvalidSpaceOfDecode := by
  intro w op n kk
  have hop : (opField w).toNat = op := opField_toNat w
  have hlt : op < 16 := by have := w.isLt; omega
  have h5or9 (i : Instr) : (if nField w = 0 then .ok i else .error (.invalidOpcode w) :
      Except DecodeError Instr) = .error (.invalidOpcode w) ↔ n ≠ 0 := by
    rw [nField_eq]
    split_ifs with hn <;> simp [n, hn]
  unfold decode
  rw [hop]
  clear_value op
  split
  case h_1 => simp [decode0_invalid_iff]
  case h_6 | h_10 => simp [h5or9]
  case h_9 => simp [decode8_invalid_iff, n]
  case h_15 => simp [decodeE_invalid_iff, kk]
  case h_16 => simp [decodeF_invalid_iff, kk]
  case h_17 => interval_cases op <;> contradiction
  all_goals simp

/-- Settles O4: the decoder computes each word. -/
theorem vectorWordsDecode : Obligations.VectorWordsDecode := by
  unfold Obligations.VectorWordsDecode
  decide

end Sys2Proof
end

section
/-! Everything an instruction can do, said once (30_encoding.md R60, 60_exceptions.md R131): it completes, leaving
`completion`, or it latches a fault that `raises` describes, or it is a RET that stops the model. Every claim about
all instructions is then one case split over `completion`. -/

namespace Sys2Proof.Machine

/-- The condition under which an instruction completes: its addresses, its stack or its key code are in range. -/
def canComplete (i : Instr) (s : State) : Prop :=
  match i with
  | .ret => 0 < s.sp.toNat ∧ s.sp.toNat ≤ 16
  | .call _ => s.sp.toNat < 16
  | .drw _ _ n => n = 0 ∨ s.i.toNat + n ≤ 0x1000
  | .skp x | .sknp x => (s.readReg x).toNat < 16
  | .ldB _ => 0x200 ≤ s.i.toNat ∧ s.i.toNat + 2 ≤ 0xFFF
  | .stRegs x => 0x200 ≤ s.i.toNat ∧ s.i.toNat + x.val ≤ 0xFFF
  | .ldRegs x => s.i.toNat + x.val ≤ 0xFFF
  | _ => True

/-- The state a completed instruction leaves. One that cannot trap leaves the state `exec` answers. -/
def completion (i : Instr) (s : State) : State :=
  match i with
  | .ret => ({ s with sp := s.sp - 1 } : State).setPc (s.stack[(s.sp - 1).toNat]?.getD 0 + 2)
  | .call nnn =>
    ({ s with stack := s.stack.setIfInBounds s.sp.toNat s.pc, sp := s.sp + 1 } : State).setPc
      (addrOperand nnn)
  | .drw x y n => (s.drawSprite (s.readReg x).toNat (s.readReg y).toNat (bytesAt s s.i.toNat n)).nextInstr
  | .skp x => s.skipIf (s.key[(s.readReg x).toNat]?.getD false)
  | .sknp x => s.skipIf !(s.key[(s.readReg x).toNat]?.getD false)
  | .ldK x =>
    match s.firstKey with
    | some k => (s.writeReg x (BitVec.ofNat 8 k.val)).nextInstr
    | none => s
  | .ldB x => (s.storeBytes s.i.toNat (bcdDigits (s.readReg x))).nextInstr
  | .stRegs x => ((s.storeBytes s.i.toNat (s.regsUpTo x)).indexPast x).nextInstr
  | .ldRegs x => ((s.loadRegs (bytesAt s s.i.toNat (x.val + 1))).indexPast x).nextInstr
  | i =>
    match exec i s with
    | .next t => t
    | .fault _ | .refused _ => s

/-- The causes of 60_exceptions.md R130 that an instruction can raise, and the `info` of each. -/
def raises (i : Instr) (s : State) (info : Nat) : FaultCode → Prop
  | .invalidOpcode | .fetchRange => False
  | .memRange => ((∃ x y n, i = .drw x y n) ∨ (∃ x, i = .ldB x) ∨ (∃ x, i = .stRegs x) ∨
      (∃ x, i = .ldRegs x)) ∧ info = max s.i.toNat 0x1000
  | .protectedWrite => ((∃ x, i = .ldB x) ∨ (∃ x, i = .stRegs x)) ∧ info = s.i.toNat ∧ info < 0x200
  | .stackOverflow => (∃ nnn, i = .call nnn) ∧ 16 ≤ s.sp.toNat ∧ info = s.pc.toNat
  | .stackUnderflow => i = .ret ∧ s.sp.toNat = 0 ∧ info = s.pc.toNat
  | .keyRange => (∃ x, (i = .skp x ∨ i = .sknp x) ∧ info = (s.readReg x).toNat) ∧ 0xF < info

theorem sp_eq_zero_iff (s : State) : s.sp = 0 ↔ s.sp.toNat = 0 := BitVec.toNat_inj.symm

/-- The popped entry is in the stack when SP is 1 to 16. -/
theorem sp_pred_of_range {s : State} (h : 0 < s.sp.toNat ∧ s.sp.toNat ≤ 16) :
    s.sp ≠ 0 ∧ (s.sp - 1).toNat = s.sp.toNat - 1 ∧ (s.sp - 1).toNat < 16 := by
  have h0 : s.sp ≠ 0 := by rw [Ne, sp_eq_zero_iff]; omega
  have hpred := sp_pred_toNat h0
  exact ⟨h0, hpred, by omega⟩

theorem exec_completes {i : Instr} {s : State} (hc : canComplete i s) :
    exec i s = .next (completion i s) := by
  cases i with
  | ret =>
    obtain ⟨h0, -, hlt⟩ := sp_pred_of_range hc
    rw [exec_ret_ok h0 hlt, completion, Vector.getElem?_eq_getElem hlt]; rfl
  | call nnn =>
    have hlt : s.sp.toNat < 16 := hc
    have hset : s.stack.setIfInBounds s.sp.toNat s.pc = s.stack.set s.sp.toNat s.pc := by grind
    rw [exec_call_ok hlt, completion, hset]
  | drw x y n => exact exec_drw_ok hc
  | ldRegs x => exact exec_ldRegs_ok hc
  | skp x =>
    rcases exec_skp_cases x s with ⟨h, he⟩ | ⟨h, -⟩
    · rw [he, completion, Vector.getElem?_eq_getElem h]; rfl
    · exact absurd hc (Nat.not_lt.2 h)
  | sknp x =>
    rcases exec_sknp_cases x s with ⟨h, he⟩ | ⟨h, -⟩
    · rw [he, completion, Vector.getElem?_eq_getElem h]; rfl
    · exact absurd hc (Nat.not_lt.2 h)
  | ldK x =>
    rcases exec_ldK_cases x s with ⟨k, hk, he⟩ | ⟨hk, he⟩
    · rw [he, completion, hk]
    · rw [he, completion, hk]
  | ldB x =>
    obtain ⟨hlo, hhi⟩ := hc
    rcases exec_ldB_cases x s with ⟨-, -, he⟩ | ⟨h, -⟩ | ⟨-, h, -⟩
    · exact he
    · omega
    · omega
  | stRegs x =>
    obtain ⟨hlo, hhi⟩ := hc
    rcases exec_stRegs_cases x s with ⟨-, -, he⟩ | ⟨h, -⟩ | ⟨-, h, -⟩
    · exact he
    · omega
    · omega
  | _ => rfl

/-- An instruction that cannot complete latches one of its faults, unless it is a RET with SP above 16. -/
theorem exec_blocked {i : Instr} {s : State} (hc : ¬ canComplete i s) :
    (∃ c n, raises i s n c ∧ exec i s = .next (s.raiseFault c n (some (encode i)))) ∨
    (16 < s.sp.toNat ∧ i = .ret ∧ exec i s = .fault .stackPointerIllegal) := by
  cases i with
  | ret =>
    by_cases h0 : s.sp.toNat = 0
    · exact .inl ⟨.stackUnderflow, _, ⟨rfl, h0, rfl⟩, exec_ret_underflow ((sp_eq_zero_iff s).2 h0)⟩
    · have h16 : 16 < s.sp.toNat := by
        by_contra h; exact hc ⟨by omega, by omega⟩
      exact .inr ⟨h16, rfl, exec_ret_stuck h16⟩
  | call nnn =>
    have h16 : 16 ≤ s.sp.toNat := Nat.not_lt.1 hc
    exact .inl ⟨.stackOverflow, _, ⟨⟨nnn, rfl⟩, h16, rfl⟩, exec_call_overflow h16⟩
  | drw x y n =>
    obtain ⟨hn, hi⟩ := not_or.1 hc
    exact .inl ⟨.memRange, _, ⟨.inl ⟨x, y, n, rfl⟩, rfl⟩, exec_drw_range (by omega) (by omega)⟩
  | ldRegs x =>
    exact .inl ⟨.memRange, _, ⟨.inr (.inr (.inr ⟨x, rfl⟩)), rfl⟩, exec_ldRegs_range (Nat.not_le.1 hc)⟩
  | skp x =>
    rcases exec_skp_cases x s with ⟨h, -⟩ | ⟨h, he⟩
    · exact absurd h hc
    · exact .inl ⟨.keyRange, _, ⟨⟨x, .inl rfl, rfl⟩, h⟩, he⟩
  | sknp x =>
    rcases exec_sknp_cases x s with ⟨h, -⟩ | ⟨h, he⟩
    · exact absurd h hc
    · exact .inl ⟨.keyRange, _, ⟨⟨x, .inr rfl, rfl⟩, h⟩, he⟩
  | ldB x =>
    rcases exec_ldB_cases x s with ⟨hlo, hhi, -⟩ | ⟨hlo, he⟩ | ⟨hlo, hhi, he⟩
    · exact absurd ⟨hlo, by omega⟩ hc
    · exact .inl ⟨.protectedWrite, _, ⟨.inl ⟨x, rfl⟩, rfl, hlo⟩, he⟩
    · exact .inl ⟨.memRange, _, ⟨.inr (.inl ⟨x, rfl⟩), rfl⟩, he⟩
  | stRegs x =>
    rcases exec_stRegs_cases x s with ⟨hlo, hhi, -⟩ | ⟨hlo, he⟩ | ⟨hlo, hhi, he⟩
    · exact absurd ⟨hlo, by omega⟩ hc
    · exact .inl ⟨.protectedWrite, _, ⟨.inr ⟨x, rfl⟩, rfl, hlo⟩, he⟩
    · exact .inl ⟨.memRange, _, ⟨.inr (.inr (.inl ⟨x, rfl⟩)), rfl⟩, he⟩
  | _ => exact absurd trivial hc

/-- The inversion of `exec`: a next state is the completion or the state found with a fault latched. -/
theorem exec_next {i : Instr} {s t : State} (h : exec i s = .next t) :
    (canComplete i s ∧ t = completion i s) ∨
    ∃ c n, raises i s n c ∧ t = s.raiseFault c n (some (encode i)) := by
  by_cases hc : canComplete i s
  · rw [exec_completes hc] at h
    cases h
    exact .inl ⟨hc, rfl⟩
  · rcases exec_blocked hc with ⟨c, n, hr, he⟩ | ⟨-, -, he⟩
    · rw [he] at h
      cases h
      exact .inr ⟨c, n, hr, rfl⟩
    · rw [he] at h
      cases h

theorem exec_not_refused (i : Instr) (s : State) (r : Refusal) : exec i s ≠ .refused r := by
  by_cases hc : canComplete i s
  · rw [exec_completes hc]; exact nofun
  · rcases exec_blocked hc with ⟨c, n, -, he⟩ | ⟨-, -, he⟩ <;> rw [he] <;> exact nofun

theorem exec_answers {s : State} (h : s.sp.toNat ≤ 16) (i : Instr) : ∃ t, exec i s = .next t := by
  by_cases hc : canComplete i s
  · exact ⟨_, exec_completes hc⟩
  · rcases exec_blocked hc with ⟨c, n, -, he⟩ | ⟨h16, -, -⟩
    · exact ⟨_, he⟩
    · omega

/-! Frames. -/

/-- The components an instruction writes when it completes. -/
def writes : Instr → List Component
  | .cls => [.fb, .newFrame, .pc]
  | .ret => [.sp, .pc]
  | .call _ => [.stack, .sp, .pc]
  | .jp _ | .jpV0 _ | .seImm _ _ | .sneImm _ _ | .seReg _ _ | .sneReg _ _ | .skp _ | .sknp _ => [.pc]
  | .ldImm _ _ | .addImm _ _ | .ldReg _ _ | .orReg _ _ | .andReg _ _ | .xorReg _ _ | .addReg _ _
  | .sub _ _ | .shr _ _ | .subn _ _ | .shl _ _ | .ldVxDt _ | .ldK _ => [.v, .pc]
  | .rnd _ _ => [.draws, .v, .pc]
  | .drw _ _ _ => [.fb, .newFrame, .v, .pc]
  | .ldI _ | .ldF _ => [.i, .pc]
  | .ldDt _ => [.dt, .pc]
  | .ldSt _ => [.st, .pc]
  | .addI _ => [.i, .v, .pc]
  | .ldB _ => [.mem, .pc]
  | .stRegs _ => [.mem, .i, .pc]
  | .ldRegs _ => [.v, .i, .pc]

/-- Updates in turn change what either of them changes. -/
theorem onlyChanges_andThen {cs cs' : List Component} {s t u : State} (h : onlyChanges cs s t)
    (h' : onlyChanges cs' t u) : onlyChanges (cs ++ cs') s u :=
  onlyChanges_trans (onlyChanges_mono (List.subset_append_left cs cs') h)
    (onlyChanges_mono (List.subset_append_right cs cs') h')

theorem onlyChanges_nextInstr (s : State) : onlyChanges [.pc] s s.nextInstr := onlyChanges_setPc s _

theorem onlyChanges_writeWithFlag (s : State) (x : Reg) (result flag : Byte) :
    onlyChanges [.v] s (s.writeWithFlag x result flag) :=
  onlyChanges_trans (onlyChanges_writeReg s x result) (onlyChanges_writeReg _ Reg.vf flag)

theorem onlyChanges_setFrame (s : State) (fb : Framebuffer) :
    onlyChanges [.fb, .newFrame] s (s.setFrame fb) := by
  intro c hc
  cases c with
  | fb | newFrame => simp at hc
  | mem => exact readByte_congr (setFrame_mem s fb)
  | _ => rfl

theorem onlyChanges_storeBytes (s : State) (addr : Nat) (bs : List Byte) :
    onlyChanges [.mem] s (s.storeBytes addr bs) := by
  intro c hc
  cases c with
  | mem => simp at hc
  | _ => rfl

theorem onlyChanges_loadRegs (s : State) (bs : List Byte) : onlyChanges [.v] s (s.loadRegs bs) := by
  intro c hc
  cases c with
  | v => simp at hc
  | mem => exact readByte_congr (loadRegs_mem s bs)
  | _ => rfl

theorem onlyChanges_setDt (s : State) (b : Byte) : onlyChanges [.dt] s (s.setDt b) := by
  intro c hc
  cases c with
  | dt => simp at hc
  | mem => exact readByte_congr (setDt_mem s b)
  | _ => rfl

theorem onlyChanges_setSt (s : State) (b : Byte) : onlyChanges [.st] s (s.setSt b) := by
  intro c hc
  cases c with
  | st => simp at hc
  | mem => exact readByte_congr (setSt_mem s b)
  | _ => rfl

theorem onlyChanges_raiseFault (s : State) (c : FaultCode) (n : Nat) (w : Option Word) :
    onlyChanges [.fault] s (s.raiseFault c n w) := by
  intro c' hc
  cases c' with
  | fault => simp at hc
  | mem => exact readByte_congr (raiseFault_mem s c n w)
  | _ => rfl

theorem onlyChanges_randByte (s : State) : onlyChanges [.draws] s s.randByte.2 := by
  intro c hc
  cases c with
  | draws => simp at hc
  | mem => exact fun _ => rfl
  | _ => rfl

theorem onlyChanges_sp_pc (s : State) (sp pc : Word) :
    onlyChanges [.sp, .pc] s (({ s with sp := sp } : State).setPc pc) := by
  intro c hc
  cases c with
  | sp | pc => simp at hc
  | mem => exact fun _ => rfl
  | _ => rfl

theorem onlyChanges_stack_sp_pc (s : State) (stack : Vector Word 16) (sp pc : Word) :
    onlyChanges [.stack, .sp, .pc] s (({ s with stack := stack, sp := sp } : State).setPc pc) := by
  intro c hc
  cases c with
  | stack | sp | pc => simp at hc
  | mem => exact fun _ => rfl
  | _ => rfl

/-- The frame of drawing a sprite. -/
theorem onlyChanges_drawSprite (s : State) (px0 py0 : Nat) (rows : List Byte) :
    onlyChanges [.fb, .newFrame, .v] s (s.drawSprite px0 py0 rows) :=
  onlyChanges_andThen (onlyChanges_setFrame s _) (onlyChanges_writeReg _ _ _)

theorem onlyChanges_completion (i : Instr) (s : State) :
    onlyChanges (writes i) s (completion i s) := by
  cases i with
  | cls => exact onlyChanges_andThen (onlyChanges_setFrame s _) (onlyChanges_nextInstr _)
  | ret => exact onlyChanges_sp_pc s _ _
  | call nnn => exact onlyChanges_stack_sp_pc s _ _ _
  | jp | jpV0 | seImm | sneImm | seReg | sneReg | skp | sknp => exact onlyChanges_setPc s _
  | ldImm | addImm | ldReg | orReg | andReg | xorReg | ldVxDt =>
    exact onlyChanges_andThen (onlyChanges_writeReg s _ _) (onlyChanges_nextInstr _)
  | addReg | sub | shr | subn | shl =>
    exact onlyChanges_andThen (onlyChanges_writeWithFlag s _ _ _) (onlyChanges_nextInstr _)
  | ldK x =>
    rw [completion]
    split
    · exact onlyChanges_andThen (onlyChanges_writeReg s _ _) (onlyChanges_nextInstr _)
    · exact onlyChanges_refl _ s
  | rnd x kk =>
    exact onlyChanges_andThen (onlyChanges_randByte s)
      (onlyChanges_andThen (onlyChanges_writeReg _ _ _) (onlyChanges_nextInstr _))
  | drw x y n => exact onlyChanges_andThen (onlyChanges_drawSprite s _ _ _) (onlyChanges_nextInstr _)
  | ldI | ldF => exact onlyChanges_andThen (onlyChanges_setI s _) (onlyChanges_nextInstr _)
  | ldDt x => exact onlyChanges_andThen (onlyChanges_setDt s _) (onlyChanges_nextInstr _)
  | ldSt x => exact onlyChanges_andThen (onlyChanges_setSt s _) (onlyChanges_nextInstr _)
  | addI x =>
    exact onlyChanges_andThen (onlyChanges_setI s _)
      (onlyChanges_andThen (onlyChanges_writeReg _ _ _) (onlyChanges_nextInstr _))
  | ldB x => exact onlyChanges_andThen (onlyChanges_storeBytes s _ _) (onlyChanges_nextInstr _)
  | stRegs x =>
    exact onlyChanges_andThen (onlyChanges_storeBytes s _ _)
      (onlyChanges_andThen (onlyChanges_setI _ _) (onlyChanges_nextInstr _))
  | ldRegs x =>
    exact onlyChanges_andThen (onlyChanges_loadRegs s _)
      (onlyChanges_andThen (onlyChanges_setI _ _) (onlyChanges_nextInstr _))

end Sys2Proof.Machine
end

section
/-! The whole machine: what every step leaves alone, the faults it latches (60_exceptions.md R130, R131), and the
invariant of every run. -/

namespace Sys2Proof.Machine

/-! What an instruction and a step leave alone. -/

/-- An instruction changes nothing but the latch and the components it writes. -/
theorem exec_same {i : Instr} {s t : State} {c : Component} (h : exec i s = .next t)
    (hfault : c ≠ .fault) (hc : c ∉ writes i) : c.same s t := by
  rcases exec_next h with ⟨-, rfl⟩ | ⟨code, n, -, rfl⟩
  · exact onlyChanges_completion i s c hc
  · exact onlyChanges_raiseFault s code n _ c (by simpa using hfault)

/-- The end of a cycle changes nothing but the timers and the counts. -/
theorem onlyChanges_endCycle (s : State) : onlyChanges [.dt, .st, .beeps, .cycles] s s.endCycle := by
  intro c hc
  cases c with
  | dt | st | beeps | cycles => simp at hc
  | mem => exact readByte_congr (endCycle_mem s)
  | v => exact endCycle_v s
  | i => exact endCycle_i s
  | pc => exact endCycle_pc s
  | sp => exact endCycle_sp s
  | stack => exact endCycle_stack s
  | fb => exact endCycle_fb s
  | key => exact endCycle_key s
  | newFrame => exact endCycle_newFrame s
  | run => exact endCycle_run s
  | fault => exact endCycle_fault s
  | draws => exact endCycle_draws s

/-- The frame of a step: a component that no latch, tick or count touches changes only if the engine was about to
run an instruction that writes it. -/
theorem step_same_or_writes {s t : State} {c : Component} (h : step s = .next t)
    (hc : c ∉ [.fault, .dt, .st, .beeps, .cycles]) :
    c.same s t ∨ ∃ i, s.willRun i ∧ c ∈ writes i := by
  obtain ⟨hfault, hend⟩ := List.ne_and_not_mem_of_not_mem_cons hc
  have hraise (code n w) : c.same s (s.raiseFault code n w) :=
    onlyChanges_raiseFault s code n w c (by simpa using hfault)
  rcases step_cases h with ⟨-, rfl⟩ | ⟨-, -, -, rfl⟩ | ⟨-, -, -, rfl⟩ | ⟨i, u, hrun, hu, rfl⟩
  · exact .inl (onlyChanges_refl [] t c List.not_mem_nil)
  · exact .inl (hraise _ _ _)
  · exact .inl (hraise _ _ _)
  · by_cases hw : c ∈ writes i
    · exact .inr ⟨i, hrun, hw⟩
    · exact .inl (Component.same_trans (exec_same hu hfault hw) (onlyChanges_endCycle u c hend))

/-- Settles O17: of all instructions only CLS and DRW write the framebuffer. -/
theorem framebufferChangedOnlyByDisplay : Obligations.FramebufferChangedOnlyByDisplay := by
  intro s t h hne
  rcases step_same_or_writes (c := .fb) h (by decide) with hsame | ⟨i, hrun, hw⟩
  · exact absurd hsame hne
  cases i with
  | cls => exact .inl hrun
  | drw x y n => exact .inr ⟨x, y, n, hrun⟩
  | _ => simp [writes] at hw

/-- Settles O18: of all instructions only RET and CALL write SP, and only CALL an entry. -/
theorem stackChangedOnlyByCallAndReturn : Obligations.StackChangedOnlyByCallAndReturn := by
  intro s t h
  constructor
  · intro hne
    rcases step_same_or_writes (c := .sp) h (by decide) with hsame | ⟨i, hrun, hw⟩
    · exact absurd hsame hne
    cases i with
    | ret => exact .inl hrun
    | call nnn => exact .inr ⟨nnn, hrun⟩
    | _ => simp [writes] at hw
  · intro hne
    rcases step_same_or_writes (c := .stack) h (by decide) with hsame | ⟨i, hrun, hw⟩
    · exact absurd hsame hne
    cases i with
    | call nnn => exact ⟨nnn, hrun⟩
    | _ => simp [writes] at hw

/-- Settles O19: no instruction writes KEY or the run state. -/
theorem stepLeavesKeypadAndRunState : Obligations.StepLeavesKeypadAndRunState := by
  intro s t h
  constructor
  · rcases step_same_or_writes (c := .key) h (by decide) with hsame | ⟨i, -, hw⟩
    · exact hsame
    · cases i <;> simp [writes] at hw
  · rcases step_same_or_writes (c := .run) h (by decide) with hsame | ⟨i, -, hw⟩
    · exact hsame
    · cases i <;> simp [writes] at hw

/-! Memory. -/

/-- The list of memory is left as it is, or bytes are stored inside the program region. -/
def storesInProgramRegion (m m' : Memory) : Prop :=
  m' = m ∨ ∃ addr bs, 0x200 ≤ addr ∧ addr + bs.length ≤ Config.memSize ∧ m' = m.writeBytes addr bs

theorem completion_mem {i : Instr} {s : State} (hc : canComplete i s) :
    storesInProgramRegion s.mem (completion i s).mem := by
  cases i with
  | ldB x =>
    obtain ⟨hlo, hhi⟩ := hc
    exact .inr ⟨_, bcdDigits (s.readReg x), hlo, by simp only [bcdDigits_length, Config.memSize]; omega, rfl⟩
  | stRegs x =>
    obtain ⟨hlo, hhi⟩ := hc
    exact .inr ⟨_, s.regsUpTo x, hlo, by rw [regsUpTo_length, Config.memSize]; omega, rfl⟩
  | ldK x =>
    left
    rw [completion]
    split <;> rfl
  | _ => exact .inl rfl

theorem step_mem {s t : State} (h : step s = .next t) : storesInProgramRegion s.mem t.mem := by
  rcases step_cases h with ⟨-, rfl⟩ | ⟨-, -, -, rfl⟩ | ⟨-, -, -, rfl⟩ | ⟨i, u, -, hu, rfl⟩
  · exact .inl rfl
  · exact .inl rfl
  · exact .inl rfl
  · rw [endCycle_mem]
    rcases exec_next hu with ⟨hc, rfl⟩ | ⟨code, n, -, rfl⟩
    · exact completion_mem hc
    · exact .inl rfl

/-- Settles O16: a step that stores at all stores from 0x200 up. -/
theorem reservedRegionNeverAltered : Obligations.ReservedRegionNeverAltered := by
  intro s t h a ha
  rcases step_mem h with heq | ⟨addr, bs, hlo, -, heq⟩
  · exact readByte_congr heq a
  · exact (readByte_congr (t := s.storeBytes addr bs) heq.symm a).symm.trans
      (readByte_storeBytes_other s addr bs a (.inl (by omega)))

/-! Faults. -/

theorem completion_fault (i : Instr) (s : State) : (completion i s).fault = s.fault :=
  onlyChanges_completion i s .fault (by cases i <;> simp [writes])

/-- An instruction that starts with an empty latch and ends with a record has raised it. -/
theorem exec_latched {i : Instr} {s t : State} {f : FaultRecord} (hf : s.fault = none)
    (h : exec i s = .next t) (ht : t.fault = some f) :
    t = { s with fault := some f } ∧ f = faultBy i s f.code f.info ∧ raises i s f.info f.code := by
  rcases exec_next h with ⟨-, rfl⟩ | ⟨c, n, hr, rfl⟩
  · rw [completion_fault, hf] at ht
    cases ht
  · rw [raiseFault_fault] at ht
    cases ht
    exact ⟨rfl, rfl, hr⟩

/-- Settles O11: by `exec_latched` the record is the instruction's own, and `raises` lists its causes. -/
theorem executionFaultCauses : Obligations.ExecutionFaultCauses := by
  refine ⟨rfl, fun i s t f hf h ht => ?_⟩
  obtain ⟨hframe, hrec, hr⟩ := exec_latched hf h ht
  refine ⟨hframe, hrec, ?_⟩
  obtain ⟨code, pc, opcode, info⟩ := f
  cases code <;> exact hr

/-- Settles O10: each of the three ways a cycle can fault goes through `raiseFault`. -/
theorem faultingCycleChangesOnlyLatch : Obligations.FaultingCycleChangesOnlyLatch := by
  intro s t f hf h ht
  rcases step_cases h with ⟨-, rfl⟩ | ⟨-, -, -, rfl⟩ | ⟨-, -, -, rfl⟩ | ⟨i, u, -, hu, rfl⟩
  · rw [hf] at ht; cases ht
  · cases ht; exact ⟨rfl, rfl, by simp⟩
  · cases ht; exact ⟨rfl, rfl, by simp⟩
  · rw [endCycle_fault] at ht
    obtain ⟨hframe, hrec, hr⟩ := exec_latched hf hu ht
    have hcode : f.code ≠ .fetchRange := fun e => by rw [e] at hr; exact hr
    rw [endCycle_faulted (by rw [ht]; rfl)]
    refine ⟨hframe, by rw [hrec]; rfl, iff_of_false ?_ hcode⟩
    rw [hrec]
    exact nofun

/-! The program counter. -/

theorem regOperand16_toNat (b : Byte) : (regOperand16 b).toNat = b.toNat :=
  BitVec.toNat_setWidth_of_le (by decide)

theorem addrOperand_add_regOperand16_toNat (nnn : Addr12) (b : Byte) :
    (addrOperand nnn + regOperand16 b).toNat = nnn.toNat + b.toNat := by
  have := nnn.isLt
  have := b.isLt
  rw [BitVec.toNat_add, addrOperand_toNat, regOperand16_toNat]
  omega

/-- The skips by the opposite test. -/
theorem skipIf_pc_of_not {s : State} {c : Bool} {p : Prop} [Decidable p] (h : c = true ↔ ¬ p) :
    (s.skipIf c).pc = if p then s.pc + 2 else s.pc + 4 := by
  rw [(skipIf_pc_and_frame h).1, ite_not]

/-- With j + 1 entries, RET pops entry j. -/
theorem poppedEntry_eq {s : State} {j : Fin 16} (h : s.sp.toNat = j.val + 1) :
    s.stack[(s.sp - 1).toNat]?.getD 0 = s.stack[j] := by
  obtain ⟨-, hpred, -⟩ := sp_pred_of_range (s := s) ⟨by omega, by omega⟩
  have hidx : (s.sp - 1).toNat = j.val := by omega
  rw [hidx, Vector.getElem?_eq_getElem j.isLt]
  rfl

theorem key_getD {s : State} {n : Nat} {k : KeyCode} (h : n = k.val) :
    s.key[n]?.getD false = s.key[k] := by
  subst h
  rw [Vector.getElem?_eq_getElem k.isLt]
  rfl

/-- Settles O12: a fault leaves PC alone, and a completion is read off row by row. -/
theorem pcAdvanceContract : Obligations.PcAdvanceContract := by
  intro i s t hf h
  rcases exec_next h with ⟨hc, rfl⟩ | ⟨c, n, -, rfl⟩
  · refine ⟨fun hne => absurd ((completion_fault i s).trans hf) hne, fun _ => ?_⟩
    cases i with
    | jp nnn | call nnn => exact addrOperand_toNat nnn
    | jpV0 nnn => exact addrOperand_add_regOperand16_toNat nnn _
    | ret =>
      intro j hj
      exact congrArg (· + 2) (poppedEntry_eq hj)
    | seImm x kk => exact (skipIf_pc_and_frame beq_iff_eq).1
    | seReg x y => exact (skipIf_pc_and_frame beq_iff_eq).1
    | sneImm x kk => exact skipIf_pc_of_not bne_iff_ne
    | sneReg x y => exact skipIf_pc_of_not bne_iff_ne
    | skp x =>
      intro k hk
      exact (skipIf_pc_and_frame (by rw [key_getD hk])).1
    | sknp x =>
      intro k hk
      exact skipIf_pc_of_not (by rw [key_getD hk, Bool.not_eq_true', Bool.not_eq_true])
    | ldK x =>
      cases hk : s.firstKey with
      | some k =>
        refine ⟨fun _ => by rw [completion, hk]; rfl, fun hnone => ?_⟩
        rw [firstKey_none.2 hnone] at hk
        cases hk
      | none =>
        refine ⟨fun ⟨k, hpressed⟩ => ?_, fun _ => by rw [completion, hk]⟩
        rw [firstKey_none.1 hk k] at hpressed
        cases hpressed
    | _ => rfl
  · exact ⟨fun _ => rfl, nofun⟩

/-! The invariant. -/

/-- A fetched instruction that moves on by 2 or 4 stays far below the bound. -/
theorem add_small_toNat_le {w : Word} (h : w.toNat ≤ 0xFFE) :
    (w + 2).toNat ≤ 0x10FE ∧ (w + 4).toNat ≤ 0x10FE := by
  have h2 : (2 : Word).toNat = 2 := rfl
  have h4 : (4 : Word).toNat = 4 := rfl
  rw [BitVec.toNat_add, BitVec.toNat_add, h2, h4]
  omega

theorem skipIf_pc_le {s : State} (h : s.pc.toNat ≤ 0xFFE) (c : Bool) :
    (s.skipIf c).pc.toNat ≤ 0x10FE := by
  obtain ⟨h2, h4⟩ := add_small_toNat_le h
  rw [skipIf_pc]
  split
  · exact h4
  · exact h2

theorem completion_pc_le {i : Instr} {s : State} (hc : canComplete i s) (hpc : s.pc.toNat ≤ 0xFFE)
    (hstack : ∀ j : Fin 16, s.stack[j].toNat ≤ 0xFFE) : (completion i s).pc.toNat ≤ 0x10FE := by
  cases i with
  | jp nnn | call nnn =>
    have := nnn.isLt
    exact (addrOperand_toNat nnn).trans_le (by omega)
  | jpV0 nnn =>
    have := nnn.isLt
    have := (s.readReg 0).isLt
    exact (addrOperand_add_regOperand16_toNat nnn _).trans_le (by omega)
  | ret =>
    obtain ⟨-, -, hlt⟩ := sp_pred_of_range hc
    show (s.stack[(s.sp - 1).toNat]?.getD 0 + 2).toNat ≤ _
    rw [Vector.getElem?_eq_getElem hlt]
    exact (add_small_toNat_le (hstack ⟨_, hlt⟩)).1
  | seImm | sneImm | seReg | sneReg | skp | sknp => exact skipIf_pc_le hpc _
  | ldK x =>
    rw [completion]
    split
    · exact (add_small_toNat_le hpc).1
    · omega
  | _ => exact (add_small_toNat_le hpc).1

theorem sp_succ_toNat {s : State} (h : s.sp.toNat < 16) : (s.sp + 1).toNat = s.sp.toNat + 1 := by
  have h1 : (1 : Word).toNat = 1 := rfl
  rw [BitVec.toNat_add, h1]
  omega

theorem completion_sp_le {i : Instr} {s : State} (hc : canComplete i s) (hsp : s.sp.toNat ≤ 16) :
    (completion i s).sp.toNat ≤ 16 := by
  cases i with
  | ret =>
    obtain ⟨-, hpred, hlt⟩ := sp_pred_of_range hc
    exact hlt.le
  | call nnn =>
    have hlt : s.sp.toNat < 16 := hc
    exact (sp_succ_toNat hlt).trans_le hlt
  | ldK x =>
    rw [onlyChanges_completion (.ldK x) s .sp (by simp [writes])]
    exact hsp
  | _ => exact hsp

theorem completion_stack_le (i : Instr) {s : State} (hpc : s.pc.toNat ≤ 0xFFE)
    (hstack : ∀ j : Fin 16, s.stack[j].toNat ≤ 0xFFE) (j : Fin 16) :
    (completion i s).stack[j].toNat ≤ 0xFFE := by
  cases i with
  | call nnn =>
    show ((s.stack.setIfInBounds s.sp.toNat s.pc)[j.val]).toNat ≤ _
    rw [Vector.getElem_setIfInBounds]
    split
    · exact hpc
    · exact hstack j
  | ldK x =>
    rw [onlyChanges_completion (.ldK x) s .stack (by simp [writes])]
    exact hstack j
  | _ => exact hstack j

/-- A latched fault moves nothing that the invariant speaks of but the record, which holds PC. -/
theorem inv_raiseFault {s : State} (h : s.Inv) (c : FaultCode) (n : Nat) (w : Option Word) :
    (s.raiseFault c n w).Inv where
  memCanonical := h.memCanonical
  spInRange := h.spInRange
  stackFetchable := h.stackFetchable
  pcBounded := h.pcBounded
  faultAtPc := by rintro f ⟨⟩; rfl

theorem inv_endCycle {s : State} (h : s.Inv) : s.endCycle.Inv where
  memCanonical := by rw [endCycle_mem]; exact h.memCanonical
  spInRange := by rw [endCycle_sp]; exact h.spInRange
  stackFetchable := by rw [endCycle_stack]; exact h.stackFetchable
  pcBounded := by rw [endCycle_pc]; exact h.pcBounded
  faultAtPc := by rw [endCycle_fault, endCycle_pc]; exact h.faultAtPc

theorem wfFrom_of_storesInProgramRegion {m m' : Memory} (h : storesInProgramRegion m m')
    (hm : Memory.wfFrom 0x200 m = true) : Memory.wfFrom 0x200 m' = true := by
  rcases h with rfl | ⟨addr, bs, hlo, hhi, rfl⟩
  · exact hm
  · exact Memory.writeBytes_wfFrom hm hlo hhi

/-- Completing an instruction that was fetched keeps the invariant. -/
theorem inv_completion {i : Instr} {s : State} (h : s.Inv) (hrun : s.willRun i) (hc : canComplete i s) :
    (completion i s).Inv := by
  obtain ⟨-, hf, hpc, -⟩ := hrun
  exact {
    memCanonical := wfFrom_of_storesInProgramRegion (completion_mem hc) h.memCanonical
    spInRange := completion_sp_le hc h.spInRange
    stackFetchable := completion_stack_le i hpc h.stackFetchable
    pcBounded := completion_pc_le hc hpc h.stackFetchable
    faultAtPc := by rw [completion_fault, hf]; exact nofun }

/-- Settles O13: a step leaves the state, latches a fault on it, or completes a fetched instruction and ends its
cycle, and each keeps the invariant. -/
theorem stepKeepsInv : Obligations.StepKeepsInv := by
  intro s t h hstep
  rcases step_cases hstep with ⟨-, rfl⟩ | ⟨-, -, -, rfl⟩ | ⟨-, -, -, rfl⟩ | ⟨i, u, hrun, hu, rfl⟩
  · exact h
  · exact inv_raiseFault h _ _ _
  · exact inv_raiseFault h _ _ _
  · rcases exec_next hu with ⟨hc, rfl⟩ | ⟨c, n, -, rfl⟩
    · exact inv_endCycle (inv_completion h hrun hc)
    · exact inv_endCycle (inv_raiseFault h _ _ _)

/-- Settles O14: with nothing stored, an empty stack and an empty latch, PC at 0x200. -/
theorem resetMeetsInv : Obligations.ResetMeetsInv where
  memCanonical := rfl
  spInRange := by decide
  stackFetchable := by decide
  pcBounded := by decide
  faultAtPc := nofun

/-- Settles O15: with SP at most 16 no RET is stuck, and everything else answers. -/
theorem stepAlwaysAnswers : Obligations.StepAlwaysAnswers := by
  intro s h
  rcases step_kinds s with hh | ⟨hr, hf, hpc⟩ | ⟨hr, hf, hpc, e, hd⟩ | ⟨i, hi⟩
  · exact ⟨_, step_halted hh⟩
  · exact ⟨_, step_fetchRange hr hf hpc⟩
  · exact ⟨_, step_invalid hr hf hpc hd⟩
  · obtain ⟨t, ht⟩ := exec_answers h.spInRange i
    exact ⟨_, step_willRun_next hi ht⟩

end Sys2Proof.Machine
end

section
/-! The cycle (30_encoding.md R60, 60_exceptions.md R146): the step around an instruction, its tick and count, and the
two instructions an engine can repeat forever. -/

namespace Sys2Proof.Machine

/-! The step. -/

theorem fault_of_willRun {s : State} {i : Instr} (h : s.willRun i) : s.fault = none := h.2.1

theorem step_willRun_fault {s : State} {i : Instr} {r : Fault} (h : s.willRun i)
    (he : exec i s = .fault r) : step s = .fault r := by
  rw [step_willRun h, he]

/-- Settles O5: the two outcomes of an instruction carry over to the step, and it has no third. -/
theorem stepRunsDecodedInstruction : Obligations.StepRunsDecodedInstruction :=
  fun s i hrun => ⟨fun _ => step_willRun_next hrun, fun _ => step_willRun_fault hrun, exec_not_refused i s⟩

/-- Settles O7: the two front-end faults of the step. -/
theorem fetchAndDecodeFaultsLatch : Obligations.FetchAndDecodeFaultsLatch :=
  fun _ hr hf => ⟨step_fetchRange hr hf, step_invalid hr hf⟩

/-! The tick and the count. -/

/-- A timer's decrement, with its floor. -/
theorem timer_dec_toNat (b : Byte) : (if b = 0 then 0 else b - 1 : Byte).toNat = b.toNat - 1 := by
  have h1 : (1 : Byte).toNat = 1 := rfl
  have hlt := b.isLt
  split
  · next h => rw [h]; rfl
  · next h =>
    have hpos : b.toNat ≠ 0 := fun e => h (BitVec.eq_of_toNat_eq e)
    rw [BitVec.toNat_sub, h1]
    omega

theorem byte_eq_one_iff (b : Byte) : b = 1 ↔ b.toNat = 1 := BitVec.toNat_inj.symm

theorem endCycle_cycles {s : State} (hf : s.fault = none) : s.endCycle.cycles = s.cycles + 1 := by
  by_cases hc : s.cycles % 8 = 0
  · rw [endCycle_tick hf hc]
  · rw [endCycle_plain hf hc]

/-- What a tick cycle leaves in the timers and in the record of Beeps. -/
theorem endCycle_tick_timers {s : State} (hf : s.fault = none) (hc : s.cycles % 8 = 0) :
    s.endCycle.dt.toNat = s.dt.toNat - 1 ∧ s.endCycle.st.toNat = s.st.toNat - 1 ∧
      s.endCycle.beeps = s.beeps + (if s.st.toNat = 1 then 1 else 0) := by
  rw [endCycle_tick hf hc]
  refine ⟨timer_dec_toNat s.dt, timer_dec_toNat s.st, ?_⟩
  rw [timerTick_beeps, if_congr (byte_eq_one_iff s.st) rfl rfl]
  split <;> rfl

/-- Settles O6: the latch, then the phase, decides what ends the cycle. -/
theorem cycleEndTicksTimers : Obligations.CycleEndTicksTimers := by
  refine fun u => ⟨fun hf => endCycle_faulted (Option.isSome_iff_ne_none.2 hf), fun hf => ?_⟩
  refine ⟨endCycle_cycles hf, onlyChanges_endCycle u, endCycle_tick_timers hf, fun hc => ?_⟩
  rw [endCycle_plain hf hc]
  exact ⟨rfl, rfl, rfl⟩

/-! The timer writes. -/

theorem exec_ldDt (x : Reg) (s : State) :
    exec (.ldDt x) s = .next (s.setDt (s.readReg x)).nextInstr := rfl

theorem exec_ldSt (x : Reg) (s : State) :
    exec (.ldSt x) s = .next (s.setSt (s.readReg x)).nextInstr := rfl

/-- Settles O55: the cycle ends on the state that already holds the new timer value. -/
theorem timerWritesThenTick : Obligations.TimerWritesThenTick := by
  intro x s
  refine ⟨⟨_, exec_ldDt x s, rfl, rfl, onlyChanges_completion (.ldDt x) s⟩,
    ⟨_, exec_ldSt x s, rfl, rfl, onlyChanges_completion (.ldSt x) s⟩, fun hrun hc => ?_, fun hrun hc => ?_⟩
  · have hf := fault_of_willRun hrun
    obtain ⟨hdt, -, -⟩ := endCycle_tick_timers (s := (s.setDt (s.readReg x)).nextInstr) hf hc
    exact ⟨_, step_willRun_next hrun (exec_ldDt x s), hdt⟩
  · have hf := fault_of_willRun hrun
    obtain ⟨-, hst, hbeeps⟩ := endCycle_tick_timers (s := (s.setSt (s.readReg x)).nextInstr) hf hc
    exact ⟨_, step_willRun_next hrun (exec_ldSt x s), hst, hbeeps⟩

/-! Repeating an instruction. -/

/-- The end of a cycle touches nothing that decides what runs next. -/
theorem willRun_endCycle {s : State} {i : Instr} (h : s.willRun i) : s.endCycle.willRun i := by
  obtain ⟨hr, hf, hpc, hd⟩ := h
  have hbyte := readByte_congr (endCycle_mem s)
  refine ⟨(endCycle_run s).trans hr, (endCycle_fault s).trans hf, ?_, ?_⟩
  · rw [endCycle_pc]; exact hpc
  · rw [State.wordAtPc, endCycle_pc, hbyte, hbyte]; exact hd

/-- A state in which the next instruction changes nothing, and that the end of a cycle keeps so, lasts for any
number of steps, each of which counts and may tick. -/
theorem runSteps_of_idle {P : State → Prop} {i : Instr}
    (hidle : ∀ s, P s → s.willRun i ∧ exec i s = .next s) (hkeep : ∀ s, P s → P s.endCycle) (k : Nat) :
    ∀ s, P s → ∃ t, runSteps k s = .next t ∧ P t ∧ t.cycles = s.cycles + k ∧
      onlyChanges [.dt, .st, .beeps, .cycles] s t := by
  induction k with
  | zero => exact fun s hs => ⟨s, rfl, hs, rfl, onlyChanges_refl _ s⟩
  | succ k ih =>
    intro s hs
    obtain ⟨hrun, he⟩ := hidle s hs
    obtain ⟨t, ht, hPt, hcycles, hframe⟩ := ih s.endCycle (hkeep s hs)
    have hf := fault_of_willRun hrun
    refine ⟨t, (runSteps_succ k (step_willRun_next hrun he)).trans ht, hPt, ?_,
      onlyChanges_trans (onlyChanges_endCycle s) hframe⟩
    rw [hcycles, endCycle_cycles hf]
    omega

theorem exec_jp_self {s : State} {nnn : Addr12} (h : nnn.toNat = s.pc.toNat) :
    exec (.jp nnn) s = .next s := by
  have hpc : addrOperand nnn = s.pc := BitVec.eq_of_toNat_eq ((addrOperand_toNat nnn).trans h)
  rw [exec_jp, hpc]
  rfl

theorem exec_ldK_none {s : State} (x : Reg) (h : ∀ k : KeyCode, s.key[k] = false) :
    exec (.ldK x) s = .next s := by
  show execLdK x s = _
  rw [execLdK, firstKey_none.2 h]

/-- Settles O22: a jump to its own address changes nothing, and stays one. -/
theorem spinningRunsForever : Obligations.SpinningRunsForever := by
  rintro s k ⟨nnn, hspin⟩
  obtain ⟨t, hrun, hspin', hcycles, hframe⟩ :=
    runSteps_of_idle (P := fun s => s.willRun (.jp nnn) ∧ nnn.toNat = s.pc.toNat) (i := .jp nnn)
      (fun s ⟨hrun, hpc⟩ => ⟨hrun, exec_jp_self hpc⟩)
      (fun s ⟨hrun, hpc⟩ => ⟨willRun_endCycle hrun, by rw [endCycle_pc]; exact hpc⟩) k s hspin
  exact ⟨t, hrun, ⟨nnn, hspin'⟩, hcycles, hframe⟩

/-- Settles O53: the wait changes nothing, and no step presses a key. -/
theorem keyWaitRepeatsForever : Obligations.KeyWaitRepeatsForever := by
  intro x s k hrun hkeys
  obtain ⟨t, hrun, ⟨hwait, -⟩, hcycles, hframe⟩ :=
    runSteps_of_idle (P := fun s => s.willRun (.ldK x) ∧ ∀ j : KeyCode, s.key[j] = false) (i := .ldK x)
      (fun s ⟨hrun, hkeys⟩ => ⟨hrun, exec_ldK_none x hkeys⟩)
      (fun s ⟨hrun, hkeys⟩ => ⟨willRun_endCycle hrun, by rw [endCycle_key]; exact hkeys⟩) k s ⟨hrun, hkeys⟩
  exact ⟨t, hrun, hwait, hcycles, hframe⟩

end Sys2Proof.Machine
end

section
/-! The register file (10_state.md R11, 42_alu.md): the flags as numbers, the write of a result with its flag, who
writes VF, and the instructions of the ALU. -/

namespace Sys2Proof.Machine

/-! The flags. -/

theorem flagByte_toNat (c : Bool) : (flagByte c).toNat = if c = true then 1 else 0 := by
  cases c <;> rfl

/-- A flag that says whether a proposition holds. -/
theorem flagByte_decide_toNat (p : Prop) [Decidable p] :
    (flagByte (decide p)).toNat = if p then 1 else 0 := by
  rw [flagByte_toNat, if_congr decide_eq_true_iff rfl rfl]

theorem carryFlag_toNat (a b : Byte) :
    (carryFlag a b).toNat = if a.toNat + b.toNat > 255 then 1 else 0 := flagByte_decide_toNat _

theorem notBorrowFlag_toNat (a b : Byte) :
    (notBorrowFlag a b).toNat = if b.toNat > a.toNat then 0 else 1 := by
  rw [notBorrowFlag, flagByte_decide_toNat, ← ite_not, if_congr Nat.not_le rfl rfl]

theorem shiftedOutLow_toNat (a : Byte) : (shiftedOutLow a).toNat = a.toNat % 2 := by
  rw [shiftedOutLow, flagByte_toNat, BitVec.getLsbD, Nat.testBit_zero]
  split
  · next h => exact (of_decide_eq_true h).symm
  · next h =>
    have hne : a.toNat % 2 ≠ 1 := fun e => h (decide_eq_true e)
    omega

theorem shiftedOutHigh_toNat (a : Byte) : (shiftedOutHigh a).toNat = a.toNat / 128 := by
  have hlt := a.isLt
  rw [shiftedOutHigh, flagByte_toNat, BitVec.getLsbD, Nat.testBit_eq_decide_div_mod_eq]
  split
  · next h =>
    have := of_decide_eq_true h
    omega
  · next h =>
    have hne : ¬ a.toNat / 2 ^ 7 % 2 = 1 := fun e => h (decide_eq_true e)
    omega

theorem indexOverflowFlag_toNat (i : Word) (a : Byte) :
    (indexOverflowFlag i a).toNat = if i.toNat + a.toNat > 0xFFF then 1 else 0 :=
  flagByte_decide_toNat _

/-! The results. -/

/-- Byte subtraction as the integers' remainder. -/
theorem byte_sub_toNat (a b : Byte) : ((a - b).toNat : Int) = ((a.toNat : Int) - b.toNat) % 256 := by
  have := a.isLt
  have := b.isLt
  rw [BitVec.toNat_sub]
  omega

theorem byte_shr_toNat (a : Byte) : (a >>> 1).toNat = a.toNat / 2 := by
  rw [BitVec.toNat_ushiftRight, Nat.shiftRight_eq_div_pow, pow_one]

theorem byte_shl_toNat (a : Byte) : (a <<< 1).toNat = 2 * a.toNat % 256 := by
  rw [BitVec.toNat_shiftLeft, Nat.shiftLeft_eq, pow_one, Nat.mul_comm]

/-! The write of a result with its flag. -/

/-- The one rule of the instructions that end in `V[x] <- result; V[0xF] <- flag; PC <- PC + 2`. -/
theorem writeWithFlag_nextInstr_effect (s : State) (x : Reg) (result flag : Byte) :
    (x ≠ 0xF → (s.writeWithFlag x result flag).nextInstr.readReg x = result) ∧
      (s.writeWithFlag x result flag).nextInstr.readReg 0xF = flag ∧
      onlyWritesRegs [x, 0xF] s (s.writeWithFlag x result flag).nextInstr ∧
      (s.writeWithFlag x result flag).nextInstr.pc = s.pc + 2 ∧
      onlyChanges [.v, .pc] s (s.writeWithFlag x result flag).nextInstr := by
  refine ⟨fun hx => ?_, ?_, fun r hr => ?_, rfl,
    onlyChanges_andThen (onlyChanges_writeWithFlag s x result flag) (onlyChanges_nextInstr _)⟩
  · rw [readReg_nextInstr, readReg_writeWithFlag, if_neg hx, if_pos rfl]
  · rw [readReg_nextInstr, readReg_writeWithFlag, if_pos rfl]
  · simp only [List.mem_cons, List.not_mem_nil, or_false, not_or] at hr
    rw [readReg_nextInstr, readReg_writeWithFlag, if_neg hr.2, if_neg hr.1]

/-! The instructions. -/

theorem exec_addImm (x : Reg) (kk : Byte) (s : State) :
    exec (.addImm x kk) s = .next (s.writeReg x (s.readReg x + kk)).nextInstr := rfl

theorem exec_orReg (x y : Reg) (s : State) :
    exec (.orReg x y) s = .next (s.writeReg x (s.readReg x ||| s.readReg y)).nextInstr := rfl

theorem exec_andReg (x y : Reg) (s : State) :
    exec (.andReg x y) s = .next (s.writeReg x (s.readReg x &&& s.readReg y)).nextInstr := rfl

theorem exec_xorReg (x y : Reg) (s : State) :
    exec (.xorReg x y) s = .next (s.writeReg x (s.readReg x ^^^ s.readReg y)).nextInstr := rfl

theorem exec_addReg (x y : Reg) (s : State) :
    exec (.addReg x y) s = .next (s.writeWithFlag x (s.readReg x + s.readReg y)
      (carryFlag (s.readReg x) (s.readReg y))).nextInstr := rfl

theorem exec_sub (x y : Reg) (s : State) :
    exec (.sub x y) s = .next (s.writeWithFlag x (s.readReg x - s.readReg y)
      (notBorrowFlag (s.readReg x) (s.readReg y))).nextInstr := rfl

theorem exec_subn (x y : Reg) (s : State) :
    exec (.subn x y) s = .next (s.writeWithFlag x (s.readReg y - s.readReg x)
      (notBorrowFlag (s.readReg y) (s.readReg x))).nextInstr := rfl

theorem exec_shr (x y : Reg) (s : State) :
    exec (.shr x y) s = .next (s.writeWithFlag x (s.readReg x >>> 1)
      (shiftedOutLow (s.readReg x))).nextInstr := rfl

theorem exec_shl (x y : Reg) (s : State) :
    exec (.shl x y) s = .next (s.writeWithFlag x (s.readReg x <<< 1)
      (shiftedOutHigh (s.readReg x))).nextInstr := rfl

theorem exec_rnd (x : Reg) (kk : Byte) (s : State) :
    exec (.rnd x kk) s =
      .next (s.randByte.2.writeReg x (Config.randByte s.draws &&& kk)).nextInstr := rfl

/-- Settles O35: byte addition is the sum modulo 256, and only Vx is written. -/
theorem addImmWraps : Obligations.AddImmWraps := by
  intro x kk s
  obtain ⟨hread, hframe⟩ := writeReg_nextInstr_effect s x (s.readReg x + kk)
  exact ⟨_, exec_addImm x kk s, by rw [hread, BitVec.toNat_add], hframe⟩

/-- Settles O37: each operation is the bitwise one of the bytes. -/
theorem logicIsBitwise : Obligations.LogicIsBitwise := by
  intro x y s
  obtain ⟨hor, horFrame⟩ := writeReg_nextInstr_effect s x (s.readReg x ||| s.readReg y)
  obtain ⟨hand, handFrame⟩ := writeReg_nextInstr_effect s x (s.readReg x &&& s.readReg y)
  obtain ⟨hxor, hxorFrame⟩ := writeReg_nextInstr_effect s x (s.readReg x ^^^ s.readReg y)
  exact ⟨⟨_, exec_orReg x y s, fun b _ => by rw [hor, BitVec.getLsbD_or], horFrame⟩,
    ⟨_, exec_andReg x y s, fun b _ => by rw [hand, BitVec.getLsbD_and], handFrame⟩,
    ⟨_, exec_xorReg x y s, fun b _ => by rw [hxor, BitVec.getLsbD_xor], hxorFrame⟩⟩

/-- Settles O38: the sum goes to Vx, then its carry to VF. -/
theorem addRegCarries : Obligations.AddRegCarries := by
  intro x y s
  obtain ⟨hread, hflag, hframe⟩ := writeWithFlag_nextInstr_effect s x (s.readReg x + s.readReg y)
    (carryFlag (s.readReg x) (s.readReg y))
  exact ⟨_, exec_addReg x y s, fun hx => by rw [hread hx, BitVec.toNat_add],
    by rw [hflag, carryFlag_toNat], hframe⟩

/-- Settles O39: SUBN is SUB with its operands exchanged. -/
theorem subtractsWithNotBorrow : Obligations.SubtractsWithNotBorrow := by
  intro x y s a b
  obtain ⟨hsub, hsubFlag, hsubFrame⟩ := writeWithFlag_nextInstr_effect s x (s.readReg x - s.readReg y)
    (notBorrowFlag (s.readReg x) (s.readReg y))
  obtain ⟨hsubn, hsubnFlag, hsubnFrame⟩ := writeWithFlag_nextInstr_effect s x (s.readReg y - s.readReg x)
    (notBorrowFlag (s.readReg y) (s.readReg x))
  exact ⟨⟨_, exec_sub x y s, fun hx => by rw [hsub hx, byte_sub_toNat],
      by rw [hsubFlag, notBorrowFlag_toNat], hsubFrame⟩,
    ⟨_, exec_subn x y s, fun hx => by rw [hsubn hx, byte_sub_toNat],
      by rw [hsubnFlag, notBorrowFlag_toNat], hsubnFrame⟩⟩

/-- Settles O40: the shifted byte goes to Vx, then the lost bit to VF; y is not read. -/
theorem shiftsByOne : Obligations.ShiftsByOne := by
  intro x y s a
  obtain ⟨hshr, hshrFlag, hshrFrame⟩ := writeWithFlag_nextInstr_effect s x (s.readReg x >>> 1)
    (shiftedOutLow (s.readReg x))
  obtain ⟨hshl, hshlFlag, hshlFrame⟩ := writeWithFlag_nextInstr_effect s x (s.readReg x <<< 1)
    (shiftedOutHigh (s.readReg x))
  exact ⟨⟨_, exec_shr x y s, fun hx => by rw [hshr hx, byte_shr_toNat],
      by rw [hshrFlag, shiftedOutLow_toNat], hshrFrame⟩,
    ⟨_, exec_shl x y s, fun hx => by rw [hshl hx, byte_shl_toNat],
      by rw [hshlFlag, shiftedOutHigh_toNat], hshlFrame⟩⟩

/-- Settles O41: the draw is counted, then masked into Vx; the draw itself stays opaque. -/
theorem rndMasksOneDraw : Obligations.RndMasksOneDraw := by
  intro x kk s
  obtain ⟨hread, hregs, hpc, -⟩ :=
    writeReg_nextInstr_effect s.randByte.2 x (Config.randByte s.draws &&& kk)
  exact ⟨_, exec_rnd x kk s, fun b _ => by rw [hread, BitVec.getLsbD_and], rfl, hregs, hpc,
    onlyChanges_mono (by simp [writes]) (onlyChanges_completion (.rnd x kk) s)⟩

/-! Who writes VF. -/

/-- The registers that a load of V0 to Vx leaves alone. -/
theorem readReg_loadRegs_above (s : State) {addr : Nat} {x r : Reg} (h : x < r) :
    (s.loadRegs (bytesAt s addr (x.val + 1))).readReg r = s.readReg r := by
  have hr : ¬ r.val < (bytesAt s addr (x.val + 1)).length := by
    rw [bytesAt_length]
    exact Nat.not_lt.2 h
  rw [readReg_loadRegs, dif_neg hr]

theorem eq_of_writeReg_changes {s : State} {x r : Reg} {b : Byte}
    (h : (s.writeReg x b).readReg r ≠ s.readReg r) : x = r := by
  by_contra hne
  exact h (readReg_writeReg_other s b (Ne.symm hne))

/-- Settles O20: an instruction that writes no register cannot change VF, and one write changes its own register. -/
theorem flagRegisterWriters : Obligations.FlagRegisterWriters := by
  intro i s t h hne
  rcases exec_next h with ⟨-, rfl⟩ | ⟨c, n, -, rfl⟩
  · cases i with
    | addReg | sub | shr | subn | shl | addI | drw => trivial
    | ldImm | addImm | ldReg | orReg | andReg | xorReg | ldVxDt => exact eq_of_writeReg_changes hne
    | rnd x kk => exact eq_of_writeReg_changes (s := s.randByte.2) hne
    | ldK x =>
      rw [completion] at hne
      split at hne
      · exact eq_of_writeReg_changes hne
      · exact absurd rfl hne
    | ldRegs x =>
      have hlast : x ≤ 0xF := Nat.le_of_lt_succ x.isLt
      exact hlast.eq_of_not_lt fun hx => hne (readReg_loadRegs_above s hx)
    | _ => exact absurd rfl hne
  · exact absurd rfl hne

end Sys2Proof.Machine
end

section
/-! Control flow (41_control_flow.md): the stack, the indexed jump and the skips on two registers and on keys; the
key wait (44_keypad_timers.md). -/

namespace Sys2Proof.Machine

/-! The stack. -/

/-- Settles O27: the popped entry is the newest, and popping only moves SP. -/
theorem retResumesAfterCall : Obligations.RetResumesAfterCall := by
  intro s j hj
  have hc : canComplete .ret s := ⟨by omega, by omega⟩
  obtain ⟨-, hpred, -⟩ := sp_pred_of_range hc
  refine ⟨_, exec_completes hc, congrArg (· + 2) (poppedEntry_eq hj), ?_,
    onlyChanges_mono (by simp [writes]) (onlyChanges_completion .ret s)⟩
  show (s.sp - 1).toNat = j.val
  omega

/-- Settles O28: the entry at SP takes the CALL's own PC. -/
theorem callPushesOwnAddress : Obligations.CallPushesOwnAddress := by
  intro nnn s j hj
  have hlt : s.sp.toNat < 16 := hj ▸ j.isLt
  refine ⟨_, exec_call_ok hlt, addrOperand_toNat nnn, ?_, fun k hk => ?_, (sp_succ_toNat hlt).trans (by rw [hj]),
    onlyChanges_mono (by simp) (onlyChanges_stack_sp_pc s _ _ _)⟩
  · show (s.stack.set s.sp.toNat s.pc)[j.val] = s.pc
    rw [Vector.getElem_set, if_pos hj]
  · have hne : s.sp.toNat ≠ k.val := fun e => hk (Fin.ext (e.symm.trans hj))
    show (s.stack.set s.sp.toNat s.pc)[k.val] = s.stack[k.val]
    rw [Vector.getElem_set, if_neg hne]

/-- Settles O29: Push tests SP before it writes, and Pop before it reads. -/
theorem stackBoundsTrap : Obligations.StackBoundsTrap :=
  fun _ s => ⟨exec_call_overflow, fun h => exec_ret_underflow ((sp_eq_zero_iff s).2 h), exec_ret_stuck⟩

/-! Jumps and skips. -/

theorem exec_jpV0 (nnn : Addr12) (s : State) :
    exec (.jpV0 nnn) s = .next (s.setPc (addrOperand nnn + regOperand16 (s.readReg 0))) := rfl

theorem exec_seReg (x y : Reg) (s : State) :
    exec (.seReg x y) s = .next (s.skipIf (s.readReg x == s.readReg y)) := rfl

theorem exec_sneReg (x y : Reg) (s : State) :
    exec (.sneReg x y) s = .next (s.skipIf (s.readReg x != s.readReg y)) := rfl

/-- Settles O31: a 12-bit and an 8-bit number have a sum of 16 bits. -/
theorem jpV0AddsV0 : Obligations.JpV0AddsV0 :=
  fun nnn s => ⟨_, exec_jpV0 nnn s, addrOperand_add_regOperand16_toNat nnn _, onlyChanges_setPc s _⟩

/-- A word with the digits of an XYN format is the word of that format. -/
theorem eq_formatXYN {w : Word} {op : BitVec 4} {x y : Reg} {n : Nat} (hn : n < 16)
    (hw : w.toNat = 0x1000 * op.toNat + 256 * x.val + 16 * y.val + n) :
    w = formatXYN op x y (BitVec.ofNat 4 n) := by
  apply BitVec.eq_of_toNat_eq
  rw [hw, formatXYN_toNat_base, BitVec.toNat_ofNat, Nat.mod_eq_of_lt hn]

/-- The two patterns with a literal low nibble 0. -/
theorem decode_formatXYN_skip (x y : Reg) {n : Nat} (hn : n < 16) :
    (decode (formatXYN 0x5 x y (BitVec.ofNat 4 n)) = if n = 0 then .ok (.seReg x y)
      else .error (.invalidOpcode (formatXYN 0x5 x y (BitVec.ofNat 4 n)))) ∧
    (decode (formatXYN 0x9 x y (BitVec.ofNat 4 n)) = if n = 0 then .ok (.sneReg x y)
      else .error (.invalidOpcode (formatXYN 0x9 x y (BitVec.ofNat 4 n)))) := by
  simp [decode, Nat.mod_eq_of_lt hn]

/-- Settles O33: the low nibble decides the word, the comparison of the registers the skip. -/
theorem registerSkips : Obligations.RegisterSkips := by
  intro x y s
  refine ⟨fun n hn w hw => ?_, fun n hn w hw => ?_, ⟨_, exec_seReg x y s, skipIf_pc_and_frame beq_iff_eq⟩,
    ⟨_, exec_sneReg x y s, skipIf_pc_and_frame bne_iff_ne⟩⟩
  · obtain rfl : w = _ := eq_formatXYN (op := 0x5) hn hw
    exact (decode_formatXYN_skip x y hn).1
  · obtain rfl : w = _ := eq_formatXYN (op := 0x9) hn hw
    exact (decode_formatXYN_skip x y hn).2

/-! Keys. -/

/-- Settles O50: the two skips test one key's level and its opposite. -/
theorem keySkipsTestLevel : Obligations.KeySkipsTestLevel := by
  intro x k s hk
  have hkey := key_getD (s := s) hk
  have hc : (s.readReg x).toNat < 16 := hk ▸ k.isLt
  exact ⟨⟨_, exec_completes (i := .skp x) hc, skipIf_pc_and_frame (by rw [hkey])⟩,
    ⟨_, exec_completes (i := .sknp x) hc, skipIf_pc_and_frame (by rw [hkey, Bool.not_eq_true'])⟩⟩

/-- Settles O51: KeyRead tests the code before it reads the key. -/
theorem keyCodeOutOfRangeTraps : Obligations.KeyCodeOutOfRangeTraps := by
  intro x s h
  constructor
  · rcases exec_skp_cases x s with ⟨hlt, -⟩ | ⟨-, he⟩
    · omega
    · exact he
  · rcases exec_sknp_cases x s with ⟨hlt, -⟩ | ⟨-, he⟩
    · omega
    · exact he

theorem firstKey_eq_some {s : State} {k : KeyCode} (hk : s.key[k] = true)
    (hleast : ∀ j : KeyCode, j < k → s.key[j] = false) : s.firstKey = some k := by
  cases hfirst : s.firstKey with
  | none => rw [firstKey_none.1 hfirst k] at hk; cases hk
  | some j =>
    obtain ⟨hj, hless⟩ := firstKey_some hfirst
    rcases lt_trichotomy j k with hlt | heq | hlt
    · rw [hleast j hlt] at hj; cases hj
    · rw [heq]
    · rw [hless k hlt] at hk; cases hk

theorem exec_ldK_some {s : State} {k : KeyCode} (x : Reg) (h : s.firstKey = some k) :
    exec (.ldK x) s = .next (s.writeReg x (BitVec.ofNat 8 k.val)).nextInstr := by
  show execLdK x s = _
  rw [execLdK, h]

/-- Settles O52: the search takes the least pressed code, and finds none only when none is pressed. -/
theorem ldKTakesLeastKeyOrWaits : Obligations.LdKTakesLeastKeyOrWaits := by
  refine fun x s => ⟨fun k hk hleast => ?_, exec_ldK_none x⟩
  obtain ⟨hread, hframe⟩ := writeReg_nextInstr_effect s x (BitVec.ofNat 8 k.val)
  have hcode : (BitVec.ofNat 8 k.val).toNat = k.val := by
    rw [BitVec.toNat_ofNat]
    exact Nat.mod_eq_of_lt (k.isLt.trans (by decide))
  exact ⟨_, exec_ldK_some x (firstKey_eq_some hk hleast), by rw [hread, hcode], hframe⟩

end Sys2Proof.Machine
end

section
/-! The index register and the transfers between registers and memory (43_index_memory.md, 20_memory.md R33 to R40
and R43). -/

namespace Sys2Proof.Machine

/-! I. -/

theorem exec_addI (x : Reg) (s : State) :
    exec (.addI x) s = .next ((s.setI (s.i + regOperand16 (s.readReg x))).writeReg Reg.vf
      (indexOverflowFlag s.i (s.readReg x))).nextInstr := rfl

theorem exec_ldF (x : Reg) (s : State) :
    exec (.ldF x) s = .next (s.setI (regOperand16 (s.readReg x) * 5)).nextInstr := rfl

/-- Settles O43: I takes the sum in 16 bits, VF the flag of the exact sum. -/
theorem addIFlagsOverflow : Obligations.AddIFlagsOverflow := by
  intro x s sum
  obtain ⟨hflag, hregs, hpc, -⟩ := writeReg_nextInstr_effect (s.setI (s.i + regOperand16 (s.readReg x)))
    Reg.vf (indexOverflowFlag s.i (s.readReg x))
  refine ⟨_, exec_addI x s, ?_, by rw [hflag, indexOverflowFlag_toNat], hregs, hpc,
    onlyChanges_mono (by simp [writes]) (onlyChanges_completion (.addI x) s)⟩
  show (s.i + regOperand16 (s.readReg x)).toNat = sum % 65536
  rw [BitVec.toNat_add, regOperand16_toNat]

/-- Settles O44: five times a byte fits in 16 bits. -/
theorem ldFPointsAtGlyph : Obligations.LdFPointsAtGlyph := by
  intro x s
  refine ⟨_, exec_ldF x s, ?_, rfl, onlyChanges_setI_nextInstr s _⟩
  have h5 : (5 : Word).toNat = 5 := rfl
  have := (s.readReg x).isLt
  show (regOperand16 (s.readReg x) * 5).toNat = _
  rw [BitVec.toNat_mul, regOperand16_toNat, h5]
  omega

/-! Stores. -/

theorem readByte_storeBytes_at {s : State} (hm : s.mem.wf = true) {addr k : Nat} {bs : List Byte}
    (hhi : addr + bs.length ≤ 0x1000) (hk : k < bs.length) :
    (s.storeBytes addr bs).readByte (addr + k) = bs[k] :=
  Memory.read_writeBytes_at hm (Nat.zero_le addr) hhi k hk

/-- Settles O45: the three digits are stored in turn from I, and dividing bytes divides their numbers. -/
theorem ldBStoresDigits : Obligations.LdBStoresDigits := by
  intro x s hm hlo hhi v
  have hbyte (k : Nat) (hk : k < 3) := readByte_storeBytes_at (k := k) hm
    (bs := bcdDigits (s.readReg x)) (by rw [bcdDigits_length]; omega : s.i.toNat + _ ≤ 0x1000) hk
  exact ⟨_, exec_completes (i := .ldB x) ⟨hlo, hhi⟩, congrArg BitVec.toNat (hbyte 0 (by decide)),
    congrArg BitVec.toNat (hbyte 1 (by decide)), congrArg BitVec.toNat (hbyte 2 (by decide)),
    readByte_storeBytes_other s s.i.toNat (bcdDigits (s.readReg x)), rfl, onlyChanges_completion (.ldB x) s⟩

/-- The post-modified I of a transfer inside memory is exact. -/
theorem indexPast_i_toNat {s : State} {x : Reg} (h : s.i.toNat + x.val ≤ 0xFFF) :
    (s.indexPast x).i.toNat = s.i.toNat + x.val + 1 := by
  rw [indexPast_i, BitVec.toNat_ofNat]
  omega

/-- Settles O46: the bytes stored from I are the registers in turn. -/
theorem stRegsStoresRegisters : Obligations.StRegsStoresRegisters := by
  intro x s hm hlo hhi
  have hlen := regsUpTo_length s x
  refine ⟨_, exec_completes (i := .stRegs x) ⟨hlo, hhi⟩, fun k hk => ?_, fun a ha => ?_, indexPast_i_toNat hhi, rfl,
    onlyChanges_completion (.stRegs x) s⟩
  · have hlt : k.val < (s.regsUpTo x).length := by rw [hlen]; exact Nat.lt_succ_of_le hk
    exact (readByte_storeBytes_at hm (by omega) hlt).trans (regsUpTo_getElem s x k hlt)
  · exact readByte_storeBytes_other s s.i.toNat (s.regsUpTo x) a (by rwa [hlen])

/-- Settles O21: a fetch at I + k reads the two bytes that LD [I], Vx stored there. -/
theorem fetchSeesStoredWord : Obligations.FetchSeesStoredWord := by
  intro x k s hm hlo hhi hk
  obtain ⟨t, he, hstored, -⟩ := stRegsStoresRegisters x s hm hlo (by omega)
  refine ⟨t, he, fun u hmem hpc => ?_⟩
  have hhigh := hstored k (Nat.le_of_lt hk)
  have hlow := hstored ⟨k.val + 1, by omega⟩ hk
  rw [fetchWord_ok (by omega), readByte_congr hmem, readByte_congr hmem, hpc, hhigh, Nat.add_assoc, hlow]
  rfl

/-! Loads. -/

theorem readReg_loadRegs_upTo (s : State) {addr : Nat} {x k : Reg} (h : k ≤ x) :
    (s.loadRegs (bytesAt s addr (x.val + 1))).readReg k = s.readByte (addr + k.val) := by
  have hk : k.val < (bytesAt s addr (x.val + 1)).length := by
    rw [bytesAt_length]
    exact Nat.lt_succ_of_le h
  rw [readReg_loadRegs, dif_pos hk, bytesAt_getElem]

/-- Settles O47: the registers up to Vx take the bytes from I on. -/
theorem ldRegsLoadsRegisters : Obligations.LdRegsLoadsRegisters :=
  fun x s h => ⟨_, exec_completes (i := .ldRegs x) h, fun _ => readReg_loadRegs_upTo s,
    fun _ => readReg_loadRegs_above s, indexPast_i_toNat h, rfl, onlyChanges_completion (.ldRegs x) s⟩

/-! Traps. -/

/-- Settles O48: the checks come before every write, in address order. -/
theorem storesOutsideProgramRegionTrap : Obligations.StoresOutsideProgramRegionTrap := by
  intro x s
  refine ⟨fun h => ⟨?_, ?_⟩, fun hlo hhi => ?_, fun hlo hhi => ?_⟩
  · rcases exec_ldB_cases x s with ⟨_, _, -⟩ | ⟨-, he⟩ | ⟨_, _, -⟩
    · omega
    · exact he
    · omega
  · rcases exec_stRegs_cases x s with ⟨_, _, -⟩ | ⟨-, he⟩ | ⟨_, _, -⟩
    · omega
    · exact he
    · omega
  · rcases exec_ldB_cases x s with ⟨_, _, -⟩ | ⟨_, -⟩ | ⟨-, -, he⟩
    · omega
    · omega
    · exact he
  · rcases exec_stRegs_cases x s with ⟨_, _, -⟩ | ⟨_, -⟩ | ⟨-, -, he⟩
    · omega
    · omega
    · exact he

/-- Settles O49: the reads stop at the first address above 0xFFF. -/
theorem readsBeyondMemoryTrap : Obligations.ReadsBeyondMemoryTrap :=
  fun _ _ _ _ _ => ⟨fun hn h => exec_drw_range hn (by omega), exec_ldRegs_range⟩

end Sys2Proof.Machine
end

section
/-! The display (40_display.md): the controller's operations, the clear, the sprite as a set of pixels, and the render
boundary. -/

namespace Sys2Proof.Machine

/-! The controller. -/

theorem write_outside {fb : Framebuffer} {x y : Nat} (b : Bool) (h : ¬ inScreen x y = true) :
    fb.write x y b = fb := by
  rw [Framebuffer.write, if_neg h]

theorem write_getLsbD {fb : Framebuffer} {x y : Nat} (b : Bool) (h : inScreen x y = true) {j : Nat}
    (hj : j < 2048) :
    (fb.write x y b).getLsbD j = if j = pixelIndex x y then b else fb.getLsbD j := by
  have hlt := pixelIndex_lt h
  rw [Framebuffer.write, if_pos h]
  cases b <;> by_cases hjp : j = pixelIndex x y
  · simp [BitVec.getLsbD_twoPow, hjp]
  · simp [hjp, hj]
  · simp [hjp, hlt]
  · simp [BitVec.getLsbD_twoPow, hjp, Ne.symm hjp]

theorem invert_getLsbD {fb : Framebuffer} {x y : Nat} (h : inScreen x y = true) (j : Nat) :
    (fb.invert x y).getLsbD j = if j = pixelIndex x y then !fb.getLsbD j else fb.getLsbD j := by
  have hlt := pixelIndex_lt h
  rw [Framebuffer.invert, if_pos h, BitVec.getLsbD_xor, BitVec.getLsbD_twoPow]
  by_cases hjp : j = pixelIndex x y
  · simp [hjp, hlt]
  · simp [hjp, Ne.symm hjp]

/-- Settles O26: in range the three operations address one cell, out of range they do nothing. -/
theorem framebufferControllerContract : Obligations.FramebufferControllerContract := by
  intro fb x y b
  rw [← inScreen_iff]
  exact ⟨fun h => ⟨Framebuffer.read_inside h, fun _ => write_getLsbD b h, fun j _ => invert_getLsbD h j⟩,
    fun h => ⟨Framebuffer.read_outside h, write_outside b h, Framebuffer.invert_outside h⟩,
    Framebuffer.invert_invert fb x y⟩

/-! The clear. -/

theorem exec_cls (s : State) : exec .cls s = .next (s.setFrame Framebuffer.clear).nextInstr := rfl

/-- Settles O23: the cleared framebuffer is the zero vector. -/
theorem clsClearsScreen : Obligations.ClsClearsScreen :=
  ⟨rfl, fun s => ⟨_, exec_cls s, fun _ _ => BitVec.getLsbD_zero, rfl, rfl, onlyChanges_completion .cls s⟩⟩

/-! The sprite. -/

theorem bytesAt_getD (s : State) {addr n k : Nat} (h : k < n) :
    (bytesAt s addr n).getD k 0 = s.readByte (addr + k) := by
  have hk : k < (bytesAt s addr n).length := by rwa [bytesAt_length]
  rw [List.getD_eq_getElem _ _ hk, bytesAt_getElem]

/-- The pixels under the sprite's 1 bits are those that its rows, as they are read, cover. -/
theorem spriteCovers_iff (s : State) (x0 y0 n px py : Nat) :
    spriteCovers s x0 y0 n px py ↔ (y0 ≤ py ∧ py < y0 + n) ∧
      rowCovers ((bytesAt s s.i.toNat n).getD (py - y0) 0) x0 px = true := by
  rw [rowCovers, Bool.and_eq_true, decide_eq_true_eq]
  constructor
  · rintro ⟨hx, hy, hbit⟩
    rw [bytesAt_getD s (by omega)]
    exact ⟨hy, hx, hbit⟩
  · rintro ⟨hy, hx, hbit⟩
    rw [bytesAt_getD s (by omega)] at hbit
    exact ⟨hx, hy, hbit⟩

theorem inScreen_of_read {fb : Framebuffer} {x y : Nat} (h : fb.read x y = true) : inScreen x y = true := by
  by_contra hout
  rw [Framebuffer.read_outside hout] at h
  cases h

theorem xor_ne_right_iff (a b : Bool) : (a ^^ b) ≠ b ↔ a = true := by
  cases a <;> cases b <;> decide

/-- Drawing changes exactly the pixels on screen that the sprite covers. -/
theorem drawSprite_flips_iff (s : State) (x0 y0 n px py : Nat) :
    (s.drawSprite x0 y0 (bytesAt s s.i.toNat n)).fb.read px py ≠ s.fb.read px py ↔
      inScreen px py = true ∧ spriteCovers s x0 y0 n px py := by
  show (drawRows (s.fb, false) x0 y0 _).1.read px py ≠ _ ↔ _
  rw [drawRows_read, bytesAt_length, xor_ne_right_iff, spriteCovers_iff, Bool.and_eq_true, Bool.and_eq_true,
    decide_eq_true_eq, and_assoc]

/-- Drawing collides exactly when a pixel on screen that the sprite covers was lit. -/
theorem drawSprite_collides_iff (s : State) (x0 y0 n : Nat) :
    (drawRows (s.fb, false) x0 y0 (bytesAt s s.i.toNat n)).2 = true ↔
      ∃ px py, px < 64 ∧ py < 32 ∧ spriteCovers s x0 y0 n px py ∧ s.fb.read px py = true := by
  rw [drawRows_collided, bytesAt_length]
  constructor
  · rintro (hfalse | ⟨r, c, hr, hc, hbit, hlit⟩)
    · cases hfalse
    · obtain ⟨hx, hy⟩ := inScreen_iff.1 (inScreen_of_read hlit)
      refine ⟨x0 + c, y0 + r, hx, hy, ⟨by omega, by omega, ?_⟩, hlit⟩
      rw [bytesAt_getD s hr] at hbit
      rwa [Nat.add_sub_cancel_left, Nat.add_sub_cancel_left]
  · rintro ⟨px, py, -, -, ⟨⟨hx, hx8⟩, ⟨hy, hyn⟩, hbit⟩, hlit⟩
    refine .inr ⟨py - y0, px - x0, by omega, by omega, ?_, ?_⟩
    · rw [bytesAt_getD s (by omega)]
      exact hbit
    · rwa [Nat.add_sub_cancel' hx, Nat.add_sub_cancel' hy]

/-- VF holds the collision after drawing. -/
theorem drawSprite_vf (s : State) (x0 y0 : Nat) (rows : List Byte) :
    (s.drawSprite x0 y0 rows).readReg 0xF = collisionFlag (drawRows (s.fb, false) x0 y0 rows).2 :=
  readReg_writeReg_same _ _ _

theorem drawSprite_onlyWritesVf (s : State) (x0 y0 : Nat) (rows : List Byte) :
    onlyWritesRegs [0xF] s (s.drawSprite x0 y0 rows) :=
  onlyWritesRegs_writeReg (s.setFrame _) Reg.vf _

/-- Settles O24: the pixels that change, and the collision among them. -/
theorem drwDrawsSprite : Obligations.DrwDrawsSprite := by
  intro x y n s _ hn covers
  have hcollides := drawSprite_collides_iff s (s.readReg x).toNat (s.readReg y).toNat n
  have hvf := drawSprite_vf s (s.readReg x).toNat (s.readReg y).toNat (bytesAt s s.i.toNat n)
  refine ⟨_, exec_drw_ok hn, fun px py hx hy => ?_, fun hlit => ?_, fun hdark => ?_,
    drawSprite_onlyWritesVf s _ _ _, rfl, rfl,
    onlyChanges_mono (by simp [writes]) (onlyChanges_completion (.drw x y n) s)⟩
  · exact (drawSprite_flips_iff s _ _ n px py).trans (and_iff_right (inScreen_iff.2 ⟨hx, hy⟩))
  · exact hvf.trans (congrArg collisionFlag (hcollides.2 hlit))
  · refine hvf.trans (congrArg collisionFlag (Bool.eq_false_iff.2 fun hcol => ?_))
    obtain ⟨px, py, hx, hy, hcov, hlit⟩ := hcollides.1 hcol
    rw [hdark px py hx hy hcov] at hlit
    cases hlit

/-- Where the sprite lies depends on memory and I alone. -/
theorem spriteCovers_congr {s t : State} (hi : t.i = s.i) (hmem : ∀ a, t.readByte a = s.readByte a)
    (x0 y0 n px py : Nat) : spriteCovers t x0 y0 n px py ↔ spriteCovers s x0 y0 n px py := by
  rw [spriteCovers, spriteCovers, hi, hmem]

/-- Two changes of a Boolean under one condition cancel. -/
theorem eq_of_ne_iff_ne {a b c : Bool} {p : Prop} (hab : b ≠ a ↔ p) (hbc : c ≠ b ↔ p) : c = a := by
  by_cases hp : p
  · rw [Bool.eq_not_of_ne (hbc.2 hp), Bool.eq_not_of_ne (hab.2 hp), Bool.not_not]
  · rw [not_ne_iff.1 (hp ∘ hbc.1), not_ne_iff.1 (hp ∘ hab.1)]

/-- Settles O25: the second draw finds the sprite at the same pixels, flips each back, and collides with those that
the first draw lit. -/
theorem drwTwiceRestoresScreen : Obligations.DrwTwiceRestoresScreen := by
  intro x y n s hn16 hn hx hy covers
  obtain ⟨t, ht, hflip, -, -, hregs, -, -, hframe⟩ := drwDrawsSprite x y n s hn16 hn
  have hi : t.i = s.i := hframe .i (by decide)
  obtain ⟨u, hu, hflip', hlit, hdark, -⟩ := drwDrawsSprite x y n t hn16 (by rwa [hi])
  have hcovers px py : spriteCovers t (t.readReg x).toNat (t.readReg y).toNat n px py ↔ covers px py := by
    rw [hregs x (by simpa using hx), hregs y (by simpa using hy)]
    exact spriteCovers_congr hi (hframe .mem (by decide)) _ _ n px py
  have hnot px py (hpx : px < 64) (hpy : py < 32) (hcov : covers px py) :
      t.fb.read px py = !s.fb.read px py :=
    Bool.eq_not_of_ne ((hflip px py hpx hpy).2 hcov)
  refine ⟨t, u, ht, hu, Framebuffer.ext_of_read fun px py => ?_, fun ⟨px, py, hpx, hpy, hcov, hoff⟩ => ?_,
    fun hall => ?_⟩
  · by_cases hs : inScreen px py = true
    · obtain ⟨hpx, hpy⟩ := inScreen_iff.1 hs
      exact eq_of_ne_iff_ne (hflip px py hpx hpy) ((hflip' px py hpx hpy).trans (hcovers px py))
    · rw [Framebuffer.read_outside hs, Framebuffer.read_outside hs]
  · exact hlit ⟨px, py, hpx, hpy, (hcovers px py).2 hcov, by rw [hnot px py hpx hpy hcov, hoff]; rfl⟩
  · refine hdark fun px py hpx hpy hcov => ?_
    have hcov := (hcovers px py).1 hcov
    rw [hnot px py hpx hpy hcov, hall px py hpx hpy hcov]
    rfl

/-! The render boundary. -/

/-- The lit pixels, row-major. -/
def litPixels (fb : Framebuffer) : List (Nat × Nat) :=
  (List.range 32).flatMap fun y => ((List.range 64).filter fun x => fb.read x y).map fun x => (x, y)

theorem renderCalls_eq (s : State) : s.renderCalls =
    [.clear] ++ (litPixels s.fb).map (fun p => .drawPixel p.1 p.2) ++ [.present] := by
  rw [litPixels, List.map_flatMap]
  simp only [List.map_map]
  rfl

theorem mem_litPixels {fb : Framebuffer} {x y : Nat} :
    (x, y) ∈ litPixels fb ↔ x < 64 ∧ y < 32 ∧ fb.getLsbD (x + 64 * y) = true := by
  have hread (hx : x < 64) (hy : y < 32) : fb.read x y = fb.getLsbD (x + 64 * y) :=
    Framebuffer.read_inside (inScreen_iff.2 ⟨hx, hy⟩)
  simp only [litPixels, List.mem_flatMap, List.mem_map, List.mem_filter, List.mem_range, Prod.mk.injEq]
  constructor
  · rintro ⟨y', hy, x', ⟨hx, hlit⟩, rfl, rfl⟩
    exact ⟨hx, hy, hread hx hy ▸ hlit⟩
  · rintro ⟨hx, hy, hlit⟩
    exact ⟨y, hy, x, ⟨hx, (hread hx hy).trans hlit⟩, rfl, rfl⟩

/-- The scan visits the cells in the order of their indices: along a row, and from each row to the next. -/
theorem litPixels_pairwise (fb : Framebuffer) :
    (litPixels fb).Pairwise fun p q => p.1 + 64 * p.2 < q.1 + 64 * q.2 := by
  refine List.pairwise_flatMap.2 ⟨fun y _ => List.pairwise_map.2 ?_, ?_⟩
  · exact (List.pairwise_lt_range.filter _).imp fun h => Nat.add_lt_add_right h _
  · refine List.pairwise_lt_range.imp fun {y y'} hlt p hp q hq => ?_
    simp only [List.mem_map, List.mem_filter, List.mem_range] at hp hq
    obtain ⟨x, ⟨hx, -⟩, rfl⟩ := hp
    obtain ⟨x', -, rfl⟩ := hq
    show x + 64 * y < x' + 64 * y'
    omega

/-- Settles O60: the pixels drawn are `litPixels`, between clear and present. -/
theorem renderFrameScansRowMajor : Obligations.RenderFrameScansRowMajor := by
  intro h
  refine ⟨{ h with block := h.block.ackFrame }, litPixels h.block.fb, ?_, fun x y => mem_litPixels,
    litPixels_pairwise h.block.fb, rfl⟩
  rw [← renderCalls_eq]
  rfl

end Sys2Proof.Machine
end

section
/-! Reset and the host interface (10_state.md R28, 20_memory.md R45 and R46, 60_exceptions.md R132 and R155). -/

namespace Sys2Proof.Machine

/-! Reset. -/

/-- Settles O56: an unlisted byte is its reset byte, a glyph's below 0x50 and 0 from there on. -/
theorem resetMemoryContents : Obligations.ResetMemoryContents := by
  refine ⟨by decide, fun a ha => ?_⟩
  show resetByte a = 0
  rw [resetByte, if_neg (by omega)]

theorem onlyChanges_hostReset (s : State) : onlyChanges [.key, .draws] State.reset s.hostReset := by
  intro c hc
  cases c with
  | key | draws => simp at hc
  | mem => exact readByte_congr (hostReset_mem s)
  | _ => rfl

/-- Settles O57: the values of the reset state, and that the host's reset is that state but for two fields. -/
theorem resetRestoresInitialState : Obligations.ResetRestoresInitialState :=
  ⟨by decide, rfl, rfl, rfl, by decide, rfl, rfl, Framebuffer.read_clear, rfl, rfl, rfl, rfl, by decide,
    fun h => ⟨_, rfl, rfl, onlyChanges_hostReset h.block, rfl, rfl, rfl, rfl⟩⟩

/-! Load. -/

theorem load_tooLong {h : Session} {b : List Byte} (hmay : h.mayLoad = true) (hlen : 3584 < b.length) :
    h.load b = .next ({ h with loadFailed := true }, .loadError) :=
  (if_pos hmay).trans (if_pos hlen)

theorem load_fits {h : Session} {b : List Byte} (hmay : h.mayLoad = true) (hlen : b.length ≤ 3584) :
    h.load b = .next ({ h with block := h.block.loadProgram b }, .done) :=
  (if_pos hmay).trans (if_neg (Nat.not_lt.2 hlen))

theorem load_refused {h : Session} {b : List Byte} (hmay : h.mayLoad = false) :
    h.load b = .refused .loadAfterStep := by
  rw [Session.load, hmay, if_neg Bool.false_ne_true]

/-- The two ways a Load is answered. -/
theorem load_next {h h' : Session} {b : List Byte} {r : Report} (hload : h.load b = .next (h', r)) :
    (3584 < b.length ∧ h' = { h with loadFailed := true } ∧ r = .loadError) ∨
    (b.length ≤ 3584 ∧ h' = { h with block := h.block.loadProgram b } ∧ r = .done) := by
  have hmay : h.mayLoad = true := by
    by_contra hne
    rw [load_refused (Bool.eq_false_iff.2 hne)] at hload
    cases hload
  rcases Nat.lt_or_ge 3584 b.length with hlen | hlen
  · rw [load_tooLong hmay hlen] at hload
    cases hload
    exact .inl ⟨hlen, rfl, rfl⟩
  · rw [load_fits hmay hlen] at hload
    cases hload
    exact .inr ⟨hlen, rfl, rfl⟩

/-- The program copy is the byte writes of a store at 0x200, without its checks. -/
theorem onlyChanges_loadProgram (s : State) (b : List Byte) : onlyChanges [.mem] s (s.loadProgram b) :=
  onlyChanges_storeBytes s 0x200 b

/-! Step. -/

theorem sessionStep_refused {h : Session} (hfailed : h.loadFailed = true) :
    h.step = .refused .stepAfterLoadError := by
  rw [Session.step, if_pos hfailed]

theorem sessionStep_of_step {h : Session} {s : State} (hfailed : h.loadFailed = false)
    (hstep : step h.block = .next s) :
    h.step = .next ({ h with block := s, mayLoad := false }, .stepped (s.beeps - h.block.beeps)) := by
  rw [Session.step, hfailed, if_neg Bool.false_ne_true, hstep]

theorem sessionStep_of_fault {h : Session} {f : Fault} (hfailed : h.loadFailed = false)
    (hstep : step h.block = .fault f) : h.step = .fault f := by
  rw [Session.step, hfailed, if_neg Bool.false_ne_true, hstep]

/-- A Step that is answered takes the permission to load away. -/
theorem sessionStep_next_mayLoad {h h' : Session} {r : Report} (hstep : h.step = .next (h', r)) :
    h'.mayLoad = false := by
  have hfailed : h.loadFailed = false := by
    by_contra hne
    rw [sessionStep_refused (Bool.eq_true_of_not_eq_false hne)] at hstep
    cases hstep
  have hanswer := sessionStep_of_step hfailed (sessionStep_next hstep)
  exact congrArg (fun p => p.1.mayLoad) (Host.Outcome.next.inj (hstep.symm.trans hanswer))

/-- Settles O58: the two answers of a permitted Load, the refusals, and what Reset and Step do to the permission. -/
theorem loadCopiesProgram : Obligations.LoadCopiesProgram := by
  intro b h
  refine ⟨⟨_, rfl, rfl, rfl⟩, fun hmay hlen hwf => ?_, fun hmay hlen => ?_, load_refused,
    fun _ _ => sessionStep_next_mayLoad⟩
  · have hlast : 0x200 + b.length ≤ 0x1000 := by omega
    exact ⟨_, load_fits hmay hlen, fun k => readByte_storeBytes_at hwf hlast k.isLt,
      readByte_storeBytes_other h.block 0x200 b, onlyChanges_loadProgram h.block b⟩
  · exact ⟨_, load_tooLong hmay hlen, rfl, sessionStep_refused rfl⟩

/-! The faulted state. -/

theorem step_faulted {s : State} (h : s.fault ≠ none) : step s = .next s :=
  step_halted (halted_iff.2 (.inl h))

/-- Settles O8: a step of the faulted state is a no-op, and of the other actions only Reset writes the latch. -/
theorem faultedStateLastsUntilReset : Obligations.FaultedStateLastsUntilReset := by
  refine ⟨fun s => step_faulted, fun a h h' r hact hf hreset => ?_⟩
  cases a with
  | reset => exact absurd rfl hreset
  | load b => rcases load_next hact with ⟨-, rfl, -⟩ | ⟨-, rfl, -⟩ <;> rfl
  | step =>
    have hnext : step h.block = .next h'.block := sessionStep_next hact
    exact congrArg State.fault (Host.Outcome.next.inj (hnext.symm.trans (step_faulted hf)))
  | pauseToggle | keyDown | keyUp | hasNewFrame | readPixel | renderFrame | ackFrame | readFault =>
    cases hact
    rfl

/-! Every action. -/

theorem onlyChanges_pauseToggle (s : State) : onlyChanges [.run] s s.pauseToggle := by
  intro c hc
  cases c with
  | run => simp at hc
  | mem => exact fun _ => rfl
  | _ => rfl

theorem onlyChanges_setKey (s : State) (k : KeyCode) (pressed : Bool) :
    onlyChanges [.key] s (s.setKey k pressed) := by
  intro c hc
  cases c with
  | key => simp at hc
  | mem => exact fun _ => rfl
  | _ => rfl

theorem setKey_key_same (s : State) (k : KeyCode) (pressed : Bool) :
    (s.setKey k pressed).key[k] = pressed := by
  show (s.key.set k.val pressed)[k.val] = pressed
  rw [Vector.getElem_set_self]

theorem setKey_key_other (s : State) {j k : KeyCode} (pressed : Bool) (h : j ≠ k) :
    (s.setKey k pressed).key[j] = s.key[j] := by
  have hne : k.val ≠ j.val := fun e => h (Fin.ext e.symm)
  show (s.key.set k.val pressed)[j.val] = s.key[j.val]
  rw [Vector.getElem_set, if_neg hne]

theorem onlyChanges_ackFrame (s : State) : onlyChanges [.newFrame] s s.ackFrame := by
  intro c hc
  cases c with
  | newFrame => simp at hc
  | mem => exact fun _ => rfl
  | _ => rfl

/-- A step never takes a Beep back, so the reported difference is exact. -/
theorem step_beeps_le {s t : State} (h : step s = .next t) : s.beeps ≤ t.beeps := by
  rcases step_beeps h with he | he <;> omega

/-- Settles O59: arm by arm, the one update of the block and its report. -/
theorem hostActionsWriteOnlyTheirOwn : Obligations.HostActionsWriteOnlyTheirOwn := by
  intro a h
  cases a with
  | reset => exact ⟨_, rfl, rfl, rfl, rfl, rfl, onlyChanges_hostReset h.block⟩
  | load b =>
    intro h' r hload
    rcases load_next hload with ⟨hlen, rfl, rfl⟩ | ⟨hlen, rfl, rfl⟩
    · exact ⟨onlyChanges_refl _ _, rfl, by rw [if_pos hlen], by rw [decide_eq_true hlen, Bool.or_true]⟩
    · have hfits := Nat.not_lt.2 hlen
      exact ⟨onlyChanges_loadProgram h.block b, rfl, by rw [if_neg hfits],
        by rw [decide_eq_false hfits, Bool.or_false]⟩
  | step =>
    refine ⟨sessionStep_refused, fun hfailed => ⟨fun s hstep => ?_, fun f => sessionStep_of_fault hfailed⟩⟩
    exact ⟨_, _, sessionStep_of_step hfailed hstep, rfl, (Nat.add_sub_cancel' (step_beeps_le hstep)).symm, rfl,
      hfailed⟩
  | pauseToggle => exact ⟨_, rfl, ⟨rfl, rfl⟩, onlyChanges_pauseToggle h.block, rfl⟩
  | keyDown k =>
    exact ⟨_, rfl, ⟨rfl, rfl⟩, onlyChanges_setKey h.block k true, setKey_key_same h.block k true,
      fun _ => setKey_key_other h.block true⟩
  | keyUp k =>
    exact ⟨_, rfl, ⟨rfl, rfl⟩, onlyChanges_setKey h.block k false, setKey_key_same h.block k false,
      fun _ => setKey_key_other h.block false⟩
  | renderFrame => exact ⟨_, _, rfl, ⟨rfl, rfl⟩, onlyChanges_ackFrame h.block, rfl⟩
  | ackFrame => exact ⟨_, rfl, ⟨rfl, rfl⟩, onlyChanges_ackFrame h.block, rfl⟩
  | hasNewFrame | readPixel | readFault => rfl

end Sys2Proof.Machine
end
